-- ==== Sys2Proof/Word.lean ====
section
/-! DEFINITION. The plain words of the LKG's host port. Bits are numbered from 0 at the least significant end (R9). -/

namespace Sys2Proof

/-- A 32-bit bus data word (R7, R35). -/
abbrev Word := BitVec 32

/-- A data or keystream byte, bit 7 most significant (R9). -/
abbrev Byte := BitVec 8

/-- A window offset: the block sees only `off[4:0]` of an address (R34). -/
abbrev Offset := BitVec 5

/-- The key as the engine takes it: a 64-bit value, never key bytes (R5, 90_conflicts.md C2). -/
abbrev Key := BitVec 64

/-- The frame number (R5). -/
abbrev Frame := BitVec 22

end Sys2Proof
end

