-- ==== Sys2Proof/Machine/Parameters.lean ====
section
/-! DEFINITION. The fixed parameters of the engine (R1 to R6). The register lengths are in the types of `Engine`.
The spec takes the source's literals as normative (92_eei_decisions.md D34; log entry 11). -/

namespace Sys2Proof.Machine

/-- TAPS1 (R2). -/
def taps1 : List Nat := [13, 16, 17, 18]

/-- TAPS2 (R2). -/
def taps2 : List Nat := [20, 21]

/-- TAPS3 (R2). -/
def taps3 : List Nat := [7, 20, 21, 22]

/-- CLK1, the clock-control bit of R1 (R3). -/
def clk1 : Nat := 8

/-- CLK2, the clock-control bit of R2 (R3). -/
def clk2 : Nat := 10

/-- CLK3, the clock-control bit of R3 (R3). -/
def clk3 : Nat := 10

/-- TOP1, the output bit of R1 (R4). -/
def top1 : Nat := 18

/-- TOP2, the output bit of R2 (R4). -/
def top2 : Nat := 21

/-- TOP3, the output bit of R3 (R4). -/
def top3 : Nat := 22

/-- KEY_BITS (R5). -/
def keyBits : Nat := 64

/-- FRAME_BITS (R5). -/
def frameBits : Nat := 22

/-- WARMUP: exactly 100 irregular steps (R6). -/
def warmUp : Nat := 100

end Sys2Proof.Machine
end

