-- ==== Sys2Proof/Config.lean ====
section
/-! DEFINITION. What the spec leaves open and the model leaves free. The engine itself leaves nothing open
(92_eei_decisions.md D35); the one open value is the block's state before its first reset (R106, 93 I5
`any value`). Each field is an uninterpreted constant: nothing can evaluate it (log entry 7). LKG_BASE and
LKG_COUNT are arguments of Machine/Platform.lean, as R7 and R8 have them (log entry 8). -/

namespace Sys2Proof.Config

/-- R1 before the first reset: unspecified (R106). -/
opaque powerUpR1 : BitVec 19

/-- R2 before the first reset: unspecified (R106). -/
opaque powerUpR2 : BitVec 22

/-- R3 before the first reset: unspecified (R106). -/
opaque powerUpR3 : BitVec 23

/-- KEY_LO before the first reset: unspecified (R106). -/
opaque powerUpKeyLo : Word

/-- KEY_HI before the first reset: unspecified (R106). -/
opaque powerUpKeyHi : Word

/-- FRAME.FN before the first reset: unspecified (R106). -/
opaque powerUpFn : Frame

/-- DOUT.RESULT before the first reset: unspecified (R106). -/
opaque powerUpResult : Byte

end Sys2Proof.Config
end

