-- ==== Sys2Proof/Syntax.lean ====
section
/-! DEFINITION. The commands of the block, one constructor per row of spec/opcode_table.json (R51). -/

namespace Sys2Proof

/-- A decoded command. INIT takes its operands from registers (R53); only ENC carries one, the data byte (R52). -/
inductive Instr where
  /-- INIT (R72): zero, mix the key and the frame, warm up. -/
  | init
  /-- KSBIT (R75): one keystream bit. -/
  | ksbit
  /-- KSBYTE (R76): one keystream byte. -/
  | ksbyte
  /-- ENC d (R77): the data byte XOR the next keystream byte. -/
  | enc (d : Byte)
  deriving DecidableEq, Repr

end Sys2Proof
end

