-- ==== Sys2Proof/Machine/Bus.lean ====
section
/-! DEFINITION. The transactions of the host port, their responses and the causes of a bus error, as data. -/

namespace Sys2Proof.Machine

/-- Access sizes a host can send: n of 1, 2 or 4 bytes (R33). Only `word` is ever accepted (R37). -/
inductive Size where
  | byte
  | half
  | word
  deriving DecidableEq, Repr

/-- The value of a write, n·8 bits wide (R33). -/
inductive WriteData where
  | byte (v : BitVec 8)
  | half (v : BitVec 16)
  | word (v : Word)
  deriving DecidableEq, Repr

/-- Reading or writing, the `kind` of R91. -/
inductive Kind where
  | read
  | write
  deriving DecidableEq, Repr

/-- A single bus transaction (R33): `MemRead(off, n)` or `MemWrite(off, n, v)`. -/
inductive Transaction where
  | read (off : Offset) (n : Size)
  | write (off : Offset) (v : WriteData)
  deriving DecidableEq, Repr

/-- The causes of a bus error (R90). A cause is the spec's name for the rule that fired; the host does not
see it (R89). -/
inductive BusError where
  /-- E_SIZE: the size is not 4 (R37). -/
  | eSize
  /-- E_ALIGN: size 4 and `off[1:0]` not 0 (R37). -/
  | eAlign
  /-- E_UNMAPPED: offset 0x14, 0x18 or 0x1C (R28). -/
  | eUnmapped
  /-- E_ACCESS: a read of CMD or a write of DOUT (R21, R22). -/
  | eAccess
  /-- E_OPCODE: OP 0x0 or 0x5 to 0xF (R55). -/
  | eOpcode
  /-- E_RSVD: a legal OP with a nonzero reserved or unused field (R56). -/
  | eRsvd
  deriving DecidableEq, Repr

/-- The block's one response to a transaction (R33). -/
inductive Response where
  /-- `OK(data)`: an accepted read. -/
  | okRead (data : Word)
  /-- `OK`: an accepted write. -/
  | okWrite
  /-- `ERROR`, with the cause the model records and the host cannot see (R89). -/
  | error (cause : BusError)
  deriving DecidableEq, Repr

/-- What a host sees of a response: an ERROR carries nothing (R89). -/
inductive HostView where
  | okData (data : Word)
  | ok
  | error
  deriving DecidableEq, Repr

/-- What can happen at the port: an accepted transaction (R43), a reset between transactions (R103), or a
reset that arrives while the transaction's command is executing, so that the reset happens instead of the
command's completion (R105). -/
inductive PortEvent where
  | transaction (t : Transaction)
  | reset
  | resetDuring (t : Transaction)
  deriving DecidableEq, Repr

/-- The registers of the window (R20). -/
inductive Reg where
  | cmd
  | dout
  | keyLo
  | keyHi
  | frame
  deriving DecidableEq, Repr

/-- The registers a read is accepted for: RO and RW (R20). -/
inductive ReadReg where
  | dout
  | keyLo
  | keyHi
  | frame
  deriving DecidableEq, Repr

/-- The registers that store what is written to them: RW (R20). -/
inductive WriteReg where
  | keyLo
  | keyHi
  | frame
  deriving DecidableEq, Repr

/-- What an accepted transaction does: a register read, a register write, or a command (R21, R39, R40). -/
inductive Access where
  | read (r : ReadReg)
  | write (r : WriteReg) (w : Word)
  | command (i : Instr)
  deriving DecidableEq, Repr

end Sys2Proof.Machine
end

