-- ==== Sys2Proof/Machine/State.lean ====
section
/-! DEFINITION. The state of one LKG instance (R32), the port's events and response beside it, and reset. -/

namespace Sys2Proof.Machine

/-- The engine state: exactly the triple (R1, R2, R3), of 19, 22 and 23 bits (R13, R15). The lengths hold by
typing, as R14 allows. -/
structure Engine where
  r1 : BitVec 19
  r2 : BitVec 22
  r3 : BitVec 23
  deriving DecidableEq, Repr

/-- The complete architectural state of one instance (R32): the engine and the interface registers. CMD stores
nothing (R21); DOUT[31:8] and FRAME[31:22] are constant 0 and are not state. -/
structure Block where
  engine : Engine
  /-- KEY_LO: key bits 31:0 (R23). -/
  keyLo : Word
  /-- KEY_HI: key bits 63:32 (R24). -/
  keyHi : Word
  /-- FRAME.FN: the frame number (R25). -/
  fn : Frame
  /-- DOUT.RESULT: the last result (R22). -/
  result : Byte
  deriving DecidableEq, Repr

/-- The machine: the block, the events its port will accept, in acceptance order (R43; log entry 1), and the
response to the event handled last (R33, R102; log entry 2). The last two are the model's own. -/
structure State where
  block : Block
  pending : List PortEvent
  response : Option Response
  deriving DecidableEq, Repr

/-- Reasons to stop with a fault: NONE. A bus error is a defined response and leaves a next state (R89, R102),
no command fails once decoded (R92), and the block never hangs (R116). So nothing raises a fault; the type
has no constructor, which is safe (log entry 5). -/
inductive Fault where
  deriving DecidableEq, Repr

/-- Reasons to refuse. No arm of `exec` uses the one the pipeline requires. -/
inductive Refusal where
  /-- Raised by an arm of `exec` for an instruction that has no meaning yet; no arm is one. Safe: the machine
  would stop where the hardware goes on. -/
  | notModelled (mnemonic : String)
  deriving DecidableEq, Repr

/-- The zero engine: R1 = R2 = R3 = 0 (R70, R103). -/
def Engine.zero : Engine :=
  { r1 := 0, r2 := 0, r3 := 0 }

/-- The block after a reset event: every field 0 (R32, R103). -/
def Block.reset : Block :=
  { engine := Engine.zero, keyLo := 0, keyHi := 0, fn := 0, result := 0 }

/-- The machine right after reset: the block of R103, nothing pending and no response yet. -/
def State.reset : State :=
  { block := Block.reset, pending := [], response := none }

/-- The machine before its first reset: every register of the block is a free value (R106; log entry 7). -/
def State.powerUp : State :=
  { block :=
      { engine := { r1 := Config.powerUpR1, r2 := Config.powerUpR2, r3 := Config.powerUpR3 }
        keyLo := Config.powerUpKeyLo
        keyHi := Config.powerUpKeyHi
        fn := Config.powerUpFn
        result := Config.powerUpResult }
    pending := []
    response := none }

end Sys2Proof.Machine
end

