-- ==== Sys2Proof/Machine/Ops.lean ====
section
/-! DEFINITION. The core primitives of 40_lfsr_core.md, and the named operations over the block and the state,
raising a bus error and taking a reset among them. -/

namespace Sys2Proof.Machine

/-! ## The engine -/

/-- The feedback bit: the XOR of the tapped bits of the value before the shift (R61, R62). -/
def feedback {n : Nat} (taps : List Nat) (r : BitVec n) : Bool :=
  taps.foldl (fun fb t => fb ^^ r.getLsbD t) false

/-- `ShiftFeedback` (R61): each index i ≥ 1 takes old index i−1, index 0 takes the feedback bit, and the old
most significant bit is discarded. -/
def shiftFeedback {n : Nat} (taps : List Nat) (r : BitVec n) : BitVec n :=
  r.shiftConcat (feedback taps r)

/-- `Maj` (R63). -/
def maj (a b c : Bool) : Bool :=
  (a && b) || (a && c) || (b && c)

/-- The clock-control bit of R1, only read (R3). -/
def Engine.c1 (e : Engine) : Bool := e.r1.getLsbD clk1

/-- The clock-control bit of R2, only read (R3). -/
def Engine.c2 (e : Engine) : Bool := e.r2.getLsbD clk2

/-- The clock-control bit of R3, only read (R3). -/
def Engine.c3 (e : Engine) : Bool := e.r3.getLsbD clk3

/-- The majority of the three clock-control bits (R64). -/
def Engine.majority (e : Engine) : Bool := maj e.c1 e.c2 e.c3

/-- `ClockIrregular` (R64): the control bits and their majority are those of the state before the step, and a
register clocks exactly when its control bit equals the majority. -/
def Engine.clockIrregular (e : Engine) : Engine :=
  { r1 := if e.c1 = e.majority then shiftFeedback taps1 e.r1 else e.r1
    r2 := if e.c2 = e.majority then shiftFeedback taps2 e.r2 else e.r2
    r3 := if e.c3 = e.majority then shiftFeedback taps3 e.r3 else e.r3 }

/-- `ClockAll` (R66). -/
def Engine.clockAll (e : Engine) : Engine :=
  { r1 := shiftFeedback taps1 e.r1
    r2 := shiftFeedback taps2 e.r2
    r3 := shiftFeedback taps3 e.r3 }

/-- XOR of a bit into bit 0 of a register, the first half of `MixBit` (R67). -/
def xorBit0 {n : Nat} (r : BitVec n) (b : Bool) : BitVec n :=
  r ^^^ (BitVec.ofBool b).setWidth n

/-- `MixBit(b)` (R67): first the XOR into bit 0 of all three registers, then `ClockAll` (90_conflicts.md C1). -/
def Engine.mixBit (b : Bool) (e : Engine) : Engine :=
  Engine.clockAll { r1 := xorBit0 e.r1 b, r2 := xorBit0 e.r2 b, r3 := xorBit0 e.r3 b }

/-- `OutputBit` (R69): the XOR of the three most significant bits of the state as it stands. -/
def Engine.outputBit (e : Engine) : Bool :=
  (e.r1.getLsbD top1 ^^ e.r2.getLsbD top2) ^^ e.r3.getLsbD top3

/-- `for i = 0 to m-1: MixBit(v[i])`, least significant bit first (R72). -/
def mixLow {n : Nat} (v : BitVec n) : Nat → Engine → Engine
  | 0, e => e
  | m + 1, e => Engine.mixBit (v.getLsbD m) (mixLow v m e)

/-- m irregular steps in a row (R72 step 4, R78). -/
def Engine.steps : Nat → Engine → Engine
  | 0, e => e
  | m + 1, e => Engine.clockIrregular (Engine.steps m e)

/-- The engine that INIT leaves: zeroed, mixed with the 64 key bits, then with the 22 frame bits, then warmed
up by 100 steps whose output is discarded (R72). It does not read the engine before it (R74). -/
def initEngine (key : Key) (frame : Frame) : Engine :=
  Engine.steps warmUp (mixLow frame frameBits (mixLow key keyBits Engine.zero))

/-- The first m rounds of `KsByte` (R76): round j clocks, then writes the output bit to bit 7−j. -/
def ksByteRounds : Nat → Engine → Engine × Byte
  | 0, e => (e, 0)
  | j + 1, e =>
    let before := ksByteRounds j e
    let after := before.1.clockIrregular
    (after, before.2 ||| (BitVec.ofBool after.outputBit).setWidth 8 <<< (7 - j))

/-- `KsByte()` (R76), shared by KSBYTE and ENC: the engine after eight steps and the byte, first bit in bit 7. -/
def ksByte (e : Engine) : Engine × Byte :=
  ksByteRounds 8 e

/-! ## The block and the state -/

/-- DOUT as a word: RESULT in bits 7:0, and bits 31:8 always 0 (R22). -/
def Block.dout (b : Block) : Word :=
  b.result.setWidth 32

/-- The end of every command: the new engine, and the result in DOUT; no command writes another register
(R16, R22, R73). -/
def Block.finish (b : Block) (engine : Engine) (result : Byte) : Block :=
  { b with engine := engine, result := result }

/-- Replace the block, leaving what is the model's own. -/
def State.setBlock (s : State) (b : Block) : State :=
  { s with block := b }

/-- Give a response (R33). -/
def State.respond (s : State) (r : Response) : State :=
  { s with response := some r }

/-- `raise BusError(cause)` (R89): the transaction ends with an ERROR response and no effect; nothing is saved,
no mode changes and control goes nowhere (R94), so there is also nothing to return from (R95). -/
def State.raise (s : State) (cause : BusError) : State :=
  s.respond (.error cause)

/-- A reset event (R103): the block takes its reset values. The block gives no response to a reset, nor to a
transaction that the reset cut short (R105, R107; log entry 6). What the port accepts next is not the block's
to change. -/
def State.takeReset (s : State) : State :=
  { s with block := Block.reset, response := none }

/-- Put a CMD write of a word at the front of what the port accepts next: the one way a command reaches the
block (R21, R48). -/
def State.offerCommand (s : State) (w : Word) : State :=
  { s with pending := .transaction (.write 0x00 (.word w)) :: s.pending }

end Sys2Proof.Machine
end

