-- ==== Sys2Proof/Machine/Cipher.lean ====
section
/-! DEFINITION. The XOR path: ENC. -/

namespace Sys2Proof.Machine

/-- ENC d on the block (R77): DOUT is d XOR the next keystream byte, zero-extended; the engine advances by
eight steps whatever d is. -/
def Block.enc (b : Block) (d : Byte) : Block :=
  let k := ksByte b.engine
  b.finish k.1 (d ^^^ k.2)

/-- ENC d (R77). -/
def execEnc (d : Byte) (s : State) : Host.Outcome State Fault Refusal :=
  .next (s.setBlock (s.block.enc d))

end Sys2Proof.Machine
end

