-- ==== Sys2Proof/WellFormed.lean ====
section
/-! DEFINITION. What a well-formed command is: as syntax, as a 32-bit CMD word, and as a row of fields. -/

namespace Sys2Proof

/-- Every term of `Instr` is well-formed: the one operand, ENC's data byte, takes each of its 256 values
(R52), and the type already bounds it. What can be ill-formed is a CMD word: see `legalWord`. -/
def Instr.wf : Instr → Bool
  | .init => true
  | .ksbit => true
  | .ksbyte => true
  | .enc _ => true

/-- The legal CMD words: the complement of the illegal words that R55 and R56 list, 259 words in all (R57). -/
def legalWord (w : Word) : Bool :=
  (w.extractLsb' 0 4 = 1 || w.extractLsb' 0 4 = 2 || w.extractLsb' 0 4 = 3) && w.extractLsb' 4 28 = 0
    || w.extractLsb' 0 4 = 4 && w.extractLsb' 16 16 = 0 && w.extractLsb' 4 4 = 0

/-- A window base the platform may choose: 32-byte aligned (R7). -/
def legalBase (base : Nat) : Bool :=
  base % 32 = 0

end Sys2Proof
end

