-- ==== Sys2Proof/Decode.lean ====
section
/-! DEFINITION. From the 32 bits of a CMD write to a command, and back. `decode` follows R54 line by line;
`encode` follows the field layout of R50 and the OP values of R51; `opcodeTable` is spec/opcode_table.json. -/

namespace Sys2Proof

open Sys2Proof.Machine (BusError)

/-- OP, bits 3:0 (R50). -/
def opField (w : Word) : BitVec 4 :=
  w.extractLsb' 0 4

/-- DATA, bits 15:8 (R50, R52). -/
def dataField (w : Word) : Byte :=
  w.extractLsb' 8 8

/-- The bits that must be 0 under a given OP: 31:16 and 7:4 for ENC, 31:4 for every other command (R54). -/
def rsvdMask (op : BitVec 4) : Word :=
  if op = 0x4 then 0xFFFF00F0 else 0xFFFFFFF0

/-- The decoder of R54: the opcode is checked before the reserved bits (R55, R56, R91). It reads no state. -/
def decode (w : Word) : Except BusError Instr :=
  if ¬(opField w = 0x1 ∨ opField w = 0x2 ∨ opField w = 0x3 ∨ opField w = 0x4) then .error .eOpcode
  else if w &&& rsvdMask (opField w) ≠ 0 then .error .eRsvd
  else if opField w = 0x1 then .ok .init
  else if opField w = 0x2 then .ok .ksbit
  else if opField w = 0x3 then .ok .ksbyte
  else .ok (.enc (dataField w))

/-- A CMD32 word from its four fields, RSVD_HI first (R50). -/
def packCmd (rsvdHi : BitVec 16) (data : Byte) (rsvdLo op : BitVec 4) : Word :=
  rsvdHi ++ data ++ rsvdLo ++ op

/-- The word of a command (R51): its OP, ENC's data byte, and 0 everywhere else. -/
def encode : Instr → Word
  | .init => packCmd 0 0 0 0x1
  | .ksbit => packCmd 0 0 0 0x2
  | .ksbyte => packCmd 0 0 0 0x3
  | .enc d => packCmd 0 d 0 0x4

/-- The mnemonic of a command, as the opcode table spells it. -/
def Instr.mnemonic : Instr → String
  | .init => "INIT"
  | .ksbit => "KSBIT"
  | .ksbyte => "KSBYTE"
  | .enc _ => "ENC"

/-- The rows of spec/opcode_table.json: mnemonic, mask, match. -/
def opcodeTable : List (String × Word × Word) :=
  [("INIT", 0xFFFFFFFF, 0x00000001),
   ("KSBIT", 0xFFFFFFFF, 0x00000002),
   ("KSBYTE", 0xFFFFFFFF, 0x00000003),
   ("ENC", 0xFFFF00FF, 0x00000004)]

/-- A word matches a row of the table when the bits under the row's mask are the row's. -/
def matchesRow (row : String × Word × Word) (w : Word) : Bool :=
  w &&& row.2.1 = row.2.2

/-- The word on the bus from its four byte lanes, lane j being bits 8j+7 to 8j (R35). The same packing, used
by a host on key bytes, gives KEY_LO and KEY_HI (R36). -/
def wordOfLanes (b0 b1 b2 b3 : Byte) : Word :=
  b3 ++ b2 ++ b1 ++ b0

/-- Byte lane j of a bus word (R35). -/
def lane (w : Word) (j : Nat) : Byte :=
  w.extractLsb' (8 * j) 8

/-- The bus word of a table word of `nbits` bits: the table numbers bits as the bus does, bit 0 least
significant (R9, R35), so its low four bytes are lanes 0 to 3; bits at and above `nbits` are 0. -/
def tableWord (nbits w : Nat) : Word :=
  wordOfLanes (BitVec.ofNat 8 (w % 2 ^ nbits)) (BitVec.ofNat 8 (w % 2 ^ nbits / 2 ^ 8))
    (BitVec.ofNat 8 (w % 2 ^ nbits / 2 ^ 16)) (BitVec.ofNat 8 (w % 2 ^ nbits / 2 ^ 24))

/-- The decoder on a word numbered as the opcode table numbers it. A command is exactly 32 bits (R58), so a
longer word with a bit above 31 set is no command. -/
def decodeTableWord (nbits w : Nat) : Option Instr :=
  if w % 2 ^ nbits < 2 ^ 32 then (decode (tableWord nbits w)).toOption else none

end Sys2Proof
end

