-- ==== Sys2Proof/Machine/Operands.lean ====
section
/-! DEFINITION. Where operands come from: the window's registers, read and written by transactions, INIT's
operands, and the checks that turn a transaction into an access. ENC's operand is a field of the word (R52). -/

namespace Sys2Proof.Machine

/-- KEY = {KEY_HI, KEY_LO}, the key INIT samples (R26, R53). -/
def Block.key (b : Block) : Key :=
  b.keyHi ++ b.keyLo

/-- FRAME as a word: FN zero-extended, so that bits 31:22 read as 0 (R25). -/
def Block.frameWord (b : Block) : Word :=
  b.fn.setWidth 32

/-- An accepted read: the register's value (R22 to R25, R39). -/
def Block.readReg (b : Block) : ReadReg → Word
  | .dout => b.dout
  | .keyLo => b.keyLo
  | .keyHi => b.keyHi
  | .frame => b.frameWord

/-- An accepted register write: all 32 bits into KEY_LO or KEY_HI (R23, R24), the low 22 into FRAME.FN and the
rest discarded (R25). Nothing else changes. -/
def Block.writeReg (b : Block) (r : WriteReg) (w : Word) : Block :=
  match r with
  | .keyLo => { b with keyLo := w }
  | .keyHi => { b with keyHi := w }
  | .frame => { b with fn := w.setWidth 22 }

/-- The size in bytes (R33). -/
def Size.bytes : Size → Nat
  | .byte => 1
  | .half => 2
  | .word => 4

/-- The size of a write's data. -/
def WriteData.size : WriteData → Size
  | .byte _ => .byte
  | .half _ => .half
  | .word _ => .word

/-- The size of a transaction. -/
def Transaction.size : Transaction → Size
  | .read _ n => n
  | .write _ v => v.size

/-- The offset of a transaction. -/
def Transaction.offset : Transaction → Offset
  | .read off _ => off
  | .write off _ => off

/-- The kind of a transaction. -/
def Transaction.kind : Transaction → Kind
  | .read _ _ => .read
  | .write _ _ => .write

/-- The offset of a register (R20). -/
def Reg.offset : Reg → Offset
  | .cmd => 0x00
  | .dout => 0x04
  | .keyLo => 0x08
  | .keyHi => 0x0C
  | .frame => 0x10

/-- A readable register as a register of the window (R20). -/
def ReadReg.reg : ReadReg → Reg
  | .dout => .dout
  | .keyLo => .keyLo
  | .keyHi => .keyHi
  | .frame => .frame

/-- An RW register as a register of the window (R20). -/
def WriteReg.reg : WriteReg → Reg
  | .keyLo => .keyLo
  | .keyHi => .keyHi
  | .frame => .frame

/-- The register a 4-byte transaction addresses: E_ALIGN first, then E_UNMAPPED for the reserved offsets
(R20, R28, R37, R91). -/
def regAt (off : Offset) : Except BusError Reg :=
  if off.extractLsb' 0 2 ≠ 0 then .error .eAlign
  else if off = 0x14 ∨ off = 0x18 ∨ off = 0x1C then .error .eUnmapped
  else if off = 0x00 then .ok .cmd
  else if off = 0x04 then .ok .dout
  else if off = 0x08 then .ok .keyLo
  else if off = 0x0C then .ok .keyHi
  else .ok .frame

/-- A read of a register: CMD is write-only (R21). -/
def readAccess : Reg → Except BusError Access
  | .cmd => .error .eAccess
  | .dout => .ok (.read .dout)
  | .keyLo => .ok (.read .keyLo)
  | .keyHi => .ok (.read .keyHi)
  | .frame => .ok (.read .frame)

/-- A write of a register: DOUT is read-only (R22), and a write of CMD is decoded as a command (R21, R54). -/
def writeAccess (w : Word) : Reg → Except BusError Access
  | .cmd => (decode w).map .command
  | .dout => .error .eAccess
  | .keyLo => .ok (.write .keyLo w)
  | .keyHi => .ok (.write .keyHi w)
  | .frame => .ok (.write .frame w)

/-- `Check` (R91): the size before the alignment, the alignment before the map, the map before the direction,
the direction before the command word. -/
def check : Transaction → Except BusError Access
  | .read off .word => (regAt off).bind readAccess
  | .read _ .half => .error .eSize
  | .read _ .byte => .error .eSize
  | .write off (.word w) => (regAt off).bind (writeAccess w)
  | .write _ (.half _) => .error .eSize
  | .write _ (.byte _) => .error .eSize

end Sys2Proof.Machine
end

