-- ==== Sys2Proof/Machine/Initialise.lean ====
section
/-! DEFINITION. The key set-up family: INIT. -/

namespace Sys2Proof.Machine

/-- INIT on the block (R72): the engine of the sampled key and frame, and DOUT cleared. KEY_LO, KEY_HI and
FRAME keep their values (R73). -/
def Block.init (b : Block) : Block :=
  b.finish (initEngine b.key b.fn) 0

/-- INIT (R72). -/
def execInit (s : State) : Host.Outcome State Fault Refusal :=
  .next (s.setBlock s.block.init)

end Sys2Proof.Machine
end

