-- ==== Sys2Proof/Machine/Keystream.lean ====
section
/-! DEFINITION. The keystream family: KSBIT and KSBYTE. -/

namespace Sys2Proof.Machine

/-- KSBIT on the block (R75): clock first, then read; DOUT is the bit, zero-extended. -/
def Block.ksbit (b : Block) : Block :=
  let e := b.engine.clockIrregular
  b.finish e ((BitVec.ofBool e.outputBit).setWidth 8)

/-- KSBYTE on the block (R76): DOUT is the next keystream byte, zero-extended. -/
def Block.ksbyte (b : Block) : Block :=
  let k := ksByte b.engine
  b.finish k.1 k.2

/-- KSBIT (R75). -/
def execKsbit (s : State) : Host.Outcome State Fault Refusal :=
  .next (s.setBlock s.block.ksbit)

/-- KSBYTE (R76). -/
def execKsbyte (s : State) : Host.Outcome State Fault Refusal :=
  .next (s.setBlock s.block.ksbyte)

end Sys2Proof.Machine
end

