-- ==== Sys2Proof/Machine/Dispatch.lean ====
section
/-! DEFINITION. One arm per command (R51), each one call of that command's meaning. -/

namespace Sys2Proof.Machine

-- The effect of a decoded command on the state (R92: none can fail once decoded).
def exec (i : Instr) (s : State) : Host.Outcome State Fault Refusal :=
  match i with
  | .init => Sys2Proof.Machine.execInit s
  | .ksbit => Sys2Proof.Machine.execKsbit s
  | .ksbyte => Sys2Proof.Machine.execKsbyte s
  | .enc d => Sys2Proof.Machine.execEnc d s

end Sys2Proof.Machine
end

