-- ==== Sys2Proof/Machine/Flags.lean ====
section
/-! DEFINITION. The block has no flags, no condition codes and no status register (R19). What stands in their
place is the response of each transaction (R89): its cause, its code, and what the host sees of it. -/

namespace Sys2Proof.Machine

/-- The spec's code numbers of the causes, for a model's use (R90). -/
def BusError.code : BusError → Nat
  | .eSize => 1
  | .eAlign => 2
  | .eUnmapped => 3
  | .eAccess => 4
  | .eOpcode => 5
  | .eRsvd => 6

/-- What the host sees: the same ERROR for every cause (R89, R91). -/
def Response.hostView : Response → HostView
  | .okRead data => .okData data
  | .okWrite => .ok
  | .error _ => .error

/-- The transaction received ERROR (R102). -/
def Response.isError : Response → Bool
  | .okRead _ => false
  | .okWrite => false
  | .error _ => true

end Sys2Proof.Machine
end

