-- ==== Sys2Proof/Machine/Port.lean ====
section
/-! DEFINITION. The host port: what one event does to the machine. The port takes one event at a time, in
acceptance order, and each takes effect completely before its response (R43, R44). -/

namespace Sys2Proof.Machine

/-- An accepted access and its response (R33). A read changes no register (R39); a register write only stores
(R40); a CMD write is answered OK once its command has finished (R44). -/
def perform (a : Access) (s : State) : Host.Outcome State Fault Refusal :=
  match a with
  | .read r => .next (s.respond (.okRead (s.block.readReg r)))
  | .write r w => .next ((s.setBlock (s.block.writeReg r w)).respond .okWrite)
  | .command i =>
    match exec i s with
    | .next t => .next (t.respond .okWrite)
    | .fault f => .fault f
    | .refused r => .refused r

/-- A transaction: checked (R91), then performed, or answered with ERROR and no effect (R89). -/
def accept (t : Transaction) (s : State) : Host.Outcome State Fault Refusal :=
  match check t with
  | .ok a => perform a s
  | .error cause => .next (s.raise cause)

/-- One port event. A reset that arrives during a command leaves exactly the reset state, no part of the
command's effect and no OK response (R105). -/
def handle (ev : PortEvent) (s : State) : Host.Outcome State Fault Refusal :=
  match ev with
  | .transaction t => accept t s
  | .reset => .next s.takeReset
  | .resetDuring _ => .next s.takeReset

/-- Handle the next event the port accepts. With none, nothing happens: the block is passive (R12; log
entry 4). -/
def serveNext (s : State) : Host.Outcome State Fault Refusal :=
  match s.pending with
  | [] => .next s
  | ev :: rest => handle ev { s with pending := rest }

end Sys2Proof.Machine
end

