-- ==== Sys2Proof/Machine/Step.lean ====
section
/-! DEFINITION. One step of the machine, and how a command is placed where the next step takes it. -/

namespace Sys2Proof.Machine

/-- One step: the port handles the next event it accepts (R43). -/
def step (s : State) : Host.Outcome State Fault Refusal :=
  serveNext s

/-- The state in which the next step accepts a CMD write of the given table word. The block fetches nothing
(R48): a command reaches it only as the data of such a write (R21; log entry 4). -/
def State.withFetchWord (s : State) (nbits w : Nat) : State :=
  s.offerCommand (tableWord nbits w)

end Sys2Proof.Machine
end

