-- ==== Sys2Proof/Machine/BlockStep.lean ====
section
/-! DEFINITION. The block as the function R33 names, from a state and a transaction to a state and a response,
and its run over a sequence of transactions. Platforms and host-level operations are written over it. -/

namespace Sys2Proof.Machine

/-- The effect of a command on the block alone (R87: a function of the block and the command). -/
def Block.command (b : Block) : Instr → Block
  | .init => b.init
  | .ksbit => b.ksbit
  | .ksbyte => b.ksbyte
  | .enc d => b.enc d

/-- `step : State → Transaction → State × Response` (R33, R102). -/
def Block.step (b : Block) (t : Transaction) : Block × Response :=
  match check t with
  | .error cause => (b, .error cause)
  | .ok (.read r) => (b, .okRead (b.readReg r))
  | .ok (.write r w) => (b.writeReg r w, .okWrite)
  | .ok (.command i) => (b.command i, .okWrite)

/-- A sequence of transactions, applied in acceptance order (R43), with the response of each. -/
def Block.serve (b : Block) : List Transaction → Block × List Response
  | [] => (b, [])
  | t :: rest =>
    let first := b.step t
    let more := first.1.serve rest
    (more.1, first.2 :: more.2)

end Sys2Proof.Machine
end

