-- ==== Sys2Proof/Machine/HostOps.lean ====
section
/-! DEFINITION. What a host writes: the assembly lines and pseudo-instructions of R59 and R60 as data, their
expansion into transactions, and the host-level operations of R81 to R84 read off the responses. -/

namespace Sys2Proof.Machine

/-- `<reg>` of R59: a named register or a raw offset. -/
inductive AsmReg where
  | named (r : Reg)
  | raw (off : Offset)
  deriving DecidableEq, Repr

/-- One line of the host-side notation (R59, R60). -/
inductive Asm where
  | wr (r : AsmReg) (imm : Word)
  | rd (r : AsmReg)
  | wrB (r : AsmReg) (imm : BitVec 8)
  | wrH (r : AsmReg) (imm : BitVec 16)
  | rdB (r : AsmReg)
  | rdH (r : AsmReg)
  | cmd (i : Instr)
  | ldkey (k : Key)
  | ldframe (f : Word)
  | setup (k : Key) (f : Word)
  | getbit
  | getbyte
  | encb (d : Byte)
  | ksbits (n : Nat)
  | ksbytes (n : Nat)
  | encrypt (data : List Byte)
  deriving DecidableEq, Repr

/-- The offset a register operand names (R59). -/
def AsmReg.offset : AsmReg → Offset
  | .named r => r.offset
  | .raw off => off

/-- `WR <reg>, <imm32>` (R59). -/
def wrLine (r : Reg) (imm : Word) : Transaction :=
  .write r.offset (.word imm)

/-- `RD <reg>` (R59). -/
def rdLine (r : Reg) : Transaction :=
  .read r.offset .word

/-- A command line: a write of the command's word to CMD (R59). -/
def cmdLine (i : Instr) : Transaction :=
  wrLine .cmd (encode i)

/-- `LDKEY k64` (R60). -/
def ldkeyLines (k : Key) : List Transaction :=
  [wrLine .keyLo (k.extractLsb' 0 32), wrLine .keyHi (k.extractLsb' 32 32)]

/-- `LDFRAME f` (R60). -/
def ldframeLines (f : Word) : List Transaction :=
  [wrLine .frame f]

/-- `SETUP k64, f` (R60). -/
def setupLines (k : Key) (f : Word) : List Transaction :=
  ldkeyLines k ++ ldframeLines f ++ [cmdLine .init]

/-- A command, then a read of its result: GETBIT, GETBYTE and ENCB d (R60). -/
def collect (i : Instr) : List Transaction :=
  [cmdLine i, rdLine .dout]

/-- `KSBITS n` (R60). -/
def ksbitsLines (n : Nat) : List Transaction :=
  (List.replicate n (collect .ksbit)).flatten

/-- `KSBYTES n` (R60). -/
def ksbytesLines (n : Nat) : List Transaction :=
  (List.replicate n (collect .ksbyte)).flatten

/-- `ENCRYPT d0, …, d(m−1)` (R60). -/
def encryptLines (data : List Byte) : List Transaction :=
  (data.map fun d => collect (.enc d)).flatten

/-- The transactions of one line (R59, R60). -/
def Asm.expand : Asm → List Transaction
  | .wr r imm => [.write r.offset (.word imm)]
  | .rd r => [.read r.offset .word]
  | .wrB r imm => [.write r.offset (.byte imm)]
  | .wrH r imm => [.write r.offset (.half imm)]
  | .rdB r => [.read r.offset .byte]
  | .rdH r => [.read r.offset .half]
  | .cmd i => [cmdLine i]
  | .ldkey k => ldkeyLines k
  | .ldframe f => ldframeLines f
  | .setup k f => setupLines k f
  | .getbit => collect .ksbit
  | .getbyte => collect .ksbyte
  | .encb d => collect (.enc d)
  | .ksbits n => ksbitsLines n
  | .ksbytes n => ksbytesLines n
  | .encrypt data => encryptLines data

/-- The data a response carries: a read's word, and nothing otherwise (R33, R89). -/
def Response.data? : Response → Option Word
  | .okRead data => some data
  | .okWrite => none
  | .error _ => none

/-- The words a host has read, in order. -/
def readData (rs : List Response) : List Word :=
  rs.filterMap Response.data?

/-- The sequence of `initialize(key, frame)` for any integers: key mod 2^32, (key >> 32) mod 2^32, frame mod
2^32, INIT (R81). -/
def hostInit (key frame : Int) : List Transaction :=
  [wrLine .keyLo (BitVec.ofInt 32 key), wrLine .keyHi (BitVec.ofInt 32 (key >>> (32 : Nat))),
   wrLine .frame (BitVec.ofInt 32 frame), cmdLine .init]

/-- `generateKeystreamBits(n)`: DOUT[0] of each read (R82). -/
def Block.keystreamBits (b : Block) (n : Nat) : Block × List Bool :=
  let run := b.serve (ksbitsLines n)
  (run.1, (readData run.2).map fun w => w.getLsbD 0)

/-- `generateKeystreamBytes(count)`: DOUT[7:0] of each read (R83). -/
def Block.keystreamBytes (b : Block) (count : Nat) : Block × List Byte :=
  let run := b.serve (ksbytesLines count)
  (run.1, (readData run.2).map fun w => w.extractLsb' 0 8)

/-- `encrypt(data)`: DOUT[7:0] of each read (R84). -/
def Block.encrypt (b : Block) (data : List Byte) : Block × List Byte :=
  let run := b.serve (encryptLines data)
  (run.1, (readData run.2).map fun w => w.extractLsb' 0 8)

end Sys2Proof.Machine
end

