-- ==== Sys2Proof/Machine/Platform.lean ====
section
/-! DEFINITION. Around the block: the address decode of R34, several instances (R8) and several masters whose
transactions an interconnect serialises in any order (R43, R97). LKG_BASE, LKG_COUNT and the order are
arguments (R7, R8, 93 I3, I4, I10); log entries 8 and 9. -/

namespace Sys2Proof.Machine

/-- Address decode (R34): a selects the window at `base` when base ≤ a < base + 32, and then off = a − base. -/
def offsetIn (base a : Nat) : Option Offset :=
  if base ≤ a ∧ a < base + 32 then some (BitVec.ofNat 5 (a - base)) else none

/-- A host's access, at an address of its own. -/
inductive HostAccess where
  | read (addr : Nat) (n : Size)
  | write (addr : Nat) (v : WriteData)
  deriving DecidableEq, Repr

/-- One instance and the base of its window. -/
structure Instance where
  base : Nat
  block : Block
  deriving DecidableEq, Repr

/-- A master: the accesses it has still to make, in its program order (R45), and the answers it has had. An
answer of none is the platform's own: the access selected no window (R34). -/
structure Master where
  todo : List HostAccess
  answers : List (Option Response)
  deriving DecidableEq, Repr

/-- A platform: LKG_COUNT instances and the masters that reach them. -/
structure Platform where
  instances : List Instance
  masters : List Master
  deriving DecidableEq, Repr

/-- The address of an access. -/
def HostAccess.addr : HostAccess → Nat
  | .read a _ => a
  | .write a _ => a

/-- The transaction an access becomes at the offset its address selects (R33, R34). -/
def HostAccess.transaction (h : HostAccess) (off : Offset) : Transaction :=
  match h with
  | .read _ n => .read off n
  | .write _ v => .write off v

/-- A proper platform: it has an instance (R8), every base is 32-byte aligned (R7), and no two instances share
one (log entry 8). -/
def Platform.wf (p : Platform) : Bool :=
  !p.instances.isEmpty && p.instances.all (fun i => legalBase i.base) && (p.instances.map Instance.base).Nodup

/-- One access to the instances: the one whose window is selected takes the transaction; the others do not
see it (R8, R34). -/
def serveAccess (h : HostAccess) : List Instance → List Instance × Option Response
  | [] => ([], none)
  | i :: rest =>
    match offsetIn i.base h.addr with
    | some off =>
      let run := i.block.step (h.transaction off)
      ({ i with block := run.1 } :: rest, some run.2)
    | none =>
      let run := serveAccess h rest
      (i :: run.1, run.2)

/-- Let master number m make its next access; nothing happens if it has none (R97). -/
def Platform.grant (p : Platform) (m : Nat) : Platform :=
  match p.masters[m]? with
  | some { todo := h :: rest, answers := old } =>
    let run := serveAccess h p.instances
    { instances := run.1
      masters := p.masters.set m { todo := rest, answers := old ++ [run.2] } }
  | _ => p

/-- A whole schedule of grants: the model admits every one (R97, 93 I10). -/
def Platform.run (p : Platform) : List Nat → Platform
  | [] => p
  | m :: rest => (p.grant m).run rest

/-- The accesses a schedule makes, in order, each with its master's number: the grant at position i to master m
makes access number c of m's list, c being how often m was granted before i, or none if the list is shorter
(R45, R97). That the lists are fixed beforehand is the model's choice (log entry 9). -/
def Platform.scheduled (p : Platform) (schedule : List Nat) : List (Nat × HostAccess) :=
  (List.range schedule.length).filterMap fun i =>
    schedule[i]?.bind fun m =>
      p.masters[m]?.bind fun x =>
        x.todo[(schedule.take i).count m]?.map fun h => (m, h)

/-- A reset event at instance k (R103). -/
def Platform.resetInstance (p : Platform) (k : Nat) : Platform :=
  { p with instances := p.instances.modify k fun i => { i with block := Block.reset } }

end Sys2Proof.Machine
end

