-- ==== Sys2Proof/Safety.lean ====
section
/-! DEFINITION. What a safe run is: no transaction of it received ERROR (R102). And the terms the whole-machine
claims are made in. -/

namespace Sys2Proof

open Sys2Proof.Machine

/-- The event just handled did not end in ERROR (R102). -/
def errorFree (s : State) : Bool :=
  match s.response with
  | some r => !r.isError
  | none => true

/-- k steps in a row. -/
def runFor : Nat → State → Host.Outcome State Fault Refusal
  | 0, s => .next s
  | k + 1, s =>
    match step s with
    | .next t => runFor k t
    | .fault f => .fault f
    | .refused r => .refused r

/-- The first k steps give no ERROR and do not stop. -/
def safeRun : Nat → State → Bool
  | 0, _ => true
  | k + 1, s =>
    match step s with
    | .next t => errorFree t && safeRun k t
    | .fault _ => false
    | .refused _ => false

/-- The engine is some number of irregular steps past some INIT (R16, R78). The zero engine of reset is one:
it is what INIT with key 0 and frame 0 leaves (R88). -/
def OnKeystream (s : State) : Prop :=
  ∃ key frame n, s.block.engine = (initEngine key frame).steps n

/-- The command a port event issues, if its transaction passes every check as a CMD write. -/
def issued : PortEvent → Option Instr
  | .transaction t =>
    match check t with
    | .ok (.command i) => some i
    | _ => none
  | .reset => none
  | .resetDuring _ => none

/-- The two bits per register that show how the last irregular step can have gone: the clock-control bit of a
register that held, or the bit above it in one that clocked. They fit some step exactly when all three moved
bits agree, or two agree and differ from the control bit of the third, which then held (R64, R65). A state
without them is the outcome of no irregular step. -/
def clockPattern (e : Engine) : Prop :=
  (e.r1.getLsbD 9 = e.r2.getLsbD 11 ∧ e.r2.getLsbD 11 = e.r3.getLsbD 11)
    ∨ (e.r2.getLsbD 11 = e.r3.getLsbD 11 ∧ e.r1.getLsbD 8 ≠ e.r3.getLsbD 11)
    ∨ (e.r1.getLsbD 9 = e.r3.getLsbD 11 ∧ e.r2.getLsbD 10 ≠ e.r3.getLsbD 11)
    ∨ (e.r1.getLsbD 9 = e.r2.getLsbD 11 ∧ e.r3.getLsbD 10 ≠ e.r2.getLsbD 11)

/-- The cause that the list of R91 gives a transaction, read line by line; none where every check passes. The
decoding of a CMD word is that of R54, with the words of R55 and R56 written out. -/
def listedCause (t : Transaction) : Option BusError :=
  if t.size.bytes ≠ 4 then some .eSize
  else if t.offset.toNat % 4 ≠ 0 then some .eAlign
  else if t.offset.toNat = 0x14 ∨ t.offset.toNat = 0x18 ∨ t.offset.toNat = 0x1C then some .eUnmapped
  else
    match t with
    | .read off _ => if off.toNat = 0x00 then some .eAccess else none
    | .write off (.word w) =>
      if off.toNat = 0x04 then some .eAccess
      else if off.toNat ≠ 0x00 then none
      else if w.toNat % 16 = 0 ∨ 5 ≤ w.toNat % 16 then some .eOpcode
      else if legalWord w then none
      else some .eRsvd
    | .write _ (.half _) => none
    | .write _ (.byte _) => none

/-- The event is a reset, whether or not it cuts a transaction short (R103, R105). -/
def isReset : PortEvent → Bool
  | .transaction _ => false
  | .reset => true
  | .resetDuring _ => true

end Sys2Proof
end

