-- ==== Sys2Proof/Certificates/Slice0/Obligations.lean ====
section
/-! DEFINITION. The statements for the provers. Each docstring names the rule it formalises.
`Engine.clockIrregular^[n]` is n irregular steps, written with the library's iteration. -/

open Sys2Proof Sys2Proof.Machine

/-! ## Encoding -/

/-- R51: the complete encodings, and E_OPCODE for every reserved OP value. -/
def Obligations.CompleteEncodings : Prop :=
  encode .init = 0x00000001 ∧ encode .ksbit = 0x00000002 ∧ encode .ksbyte = 0x00000003
    ∧ (∀ d : Byte, encode (.enc d) = 0x00000004 + d.setWidth 32 * 0x100)
    ∧ (∀ i : Instr, decode (encode i) = .ok i)
    ∧ ∀ w : Word, w.toNat % 16 = 0 ∨ 5 ≤ w.toNat % 16 → decode w = .error .eOpcode

/-- 95_test_vectors.md §2.10: words written out from the encoding, and what each is. -/
def Obligations.ListedWordsDecode : Prop :=
  decode 0x00000001 = .ok .init ∧ decode 0x00000002 = .ok .ksbit ∧ decode 0x00000003 = .ok .ksbyte
    ∧ decode 0x00004804 = .ok (.enc 0x48) ∧ decode 0x0000FF04 = .ok (.enc 0xFF)
    ∧ decode 0x00000000 = .error .eOpcode ∧ decode 0x80000007 = .error .eOpcode
    ∧ decode 0x00000101 = .error .eRsvd ∧ decode 0x000000F4 = .error .eRsvd

/-- R50, R54: decoding and encoding are inverse to each other, on every well-formed command and on every
accepted word. -/
def Obligations.DecodeEncodeAgree : Prop :=
  (∀ i : Instr, i.wf = true → decode (encode i) = .ok i)
    ∧ ∀ (w : Word) (i : Instr), decode w = .ok i → i.wf = true ∧ encode i = w

/-- R57: every CMD word is exactly one of 259 legal words, an E_OPCODE word or an E_RSVD word. The words are
sorted by number alone: the opcode is `w mod 16`, the legal words are 1, 2, 3 and 4 + 256 d. -/
def Obligations.WordsAreLegalOrOneError : Prop :=
  ∃ legal : List Word, legal.Nodup ∧ legal.length = 259
    ∧ (∀ w, w ∈ legal ↔ w.toNat = 1 ∨ w.toNat = 2 ∨ w.toNat = 3 ∨ ∃ d < 256, w.toNat = 4 + 256 * d)
    ∧ (∀ w, w ∈ legal ↔ ∃ i, decode w = .ok i)
    ∧ (∀ w, decode w = .error .eOpcode ↔ w.toNat % 16 = 0 ∨ 5 ≤ w.toNat % 16)
    ∧ ∀ w, decode w = .error .eRsvd ↔ w ∉ legal ∧ 1 ≤ w.toNat % 16 ∧ w.toNat % 16 ≤ 4

/-- R55, R56: a CMD write of an illegal word is answered with ERROR under its cause, and changes nothing. -/
def Obligations.IllegalWordsChangeNothing : Prop :=
  ∀ (s : State) (w : Word) (q : List PortEvent),
    (w.toNat % 16 = 0 ∨ 5 ≤ w.toNat % 16 →
      ∃ t, step { s with pending := .transaction (.write 0x00 (.word w)) :: q } = .next t
        ∧ t.response = some (.error .eOpcode) ∧ t.block = s.block)
    ∧ ((((w.extractLsb' 0 4 = 1 ∨ w.extractLsb' 0 4 = 2 ∨ w.extractLsb' 0 4 = 3) ∧ w.extractLsb' 4 28 ≠ 0)
        ∨ (w.extractLsb' 0 4 = 4 ∧ (w.extractLsb' 16 16 ≠ 0 ∨ w.extractLsb' 4 4 ≠ 0))) →
      ∃ t, step { s with pending := .transaction (.write 0x00 (.word w)) :: q } = .next t
        ∧ t.response = some (.error .eRsvd) ∧ t.block = s.block)

/-- spec/opcode_table.json: no word matches two rows, and a word matches a row exactly when the decoder gives
a command of that row's mnemonic. -/
def Obligations.TableRowsDecide : Prop :=
  opcodeTable.Pairwise (fun a b => ∀ w, ¬(matchesRow a w = true ∧ matchesRow b w = true))
    ∧ ∀ row ∈ opcodeTable, ∀ w : Word,
        matchesRow row w = true ↔ ∃ i, decode w = .ok i ∧ i.mnemonic = row.1

/-! ## The engine's primitives -/

/-- R61, R62: shift-and-feedback of each register, bit by bit and as a number. -/
def Obligations.ShiftFeedbackShifts : Prop :=
  (∀ r : BitVec 19,
      let fb := ((r.getLsbD 13 ^^ r.getLsbD 16) ^^ r.getLsbD 17) ^^ r.getLsbD 18
      (∀ i < 19, (shiftFeedback taps1 r).getLsbD i = if i = 0 then fb else r.getLsbD (i - 1))
        ∧ (shiftFeedback taps1 r).toNat = r.toNat * 2 % 2 ^ 19 + fb.toNat)
    ∧ (∀ r : BitVec 22,
      let fb := r.getLsbD 20 ^^ r.getLsbD 21
      (∀ i < 22, (shiftFeedback taps2 r).getLsbD i = if i = 0 then fb else r.getLsbD (i - 1))
        ∧ (shiftFeedback taps2 r).toNat = r.toNat * 2 % 2 ^ 22 + fb.toNat)
    ∧ ∀ r : BitVec 23,
      let fb := ((r.getLsbD 7 ^^ r.getLsbD 20) ^^ r.getLsbD 21) ^^ r.getLsbD 22
      (∀ i < 23, (shiftFeedback taps3 r).getLsbD i = if i = 0 then fb else r.getLsbD (i - 1))
        ∧ (shiftFeedback taps3 r).toNat = r.toNat * 2 % 2 ^ 23 + fb.toNat

/-- R63: the majority is 1 exactly when at least two of the three bits are 1. -/
def Obligations.MajorityIsTwoOfThree : Prop :=
  ∀ a b c : Bool, maj a b c = true ↔ 2 ≤ a.toNat + b.toNat + c.toNat

/-- R64: a register clocks exactly when its control bit, read before the step, equals the majority of the
three; otherwise it holds. -/
def Obligations.MajorityDecidesWhatClocks : Prop :=
  ∀ e : Engine,
    let m := maj (e.r1.getLsbD 8) (e.r2.getLsbD 10) (e.r3.getLsbD 10)
    (e.r1.getLsbD 8 = m → e.clockIrregular.r1 = shiftFeedback taps1 e.r1)
      ∧ (e.r1.getLsbD 8 ≠ m → e.clockIrregular.r1 = e.r1)
      ∧ (e.r2.getLsbD 10 = m → e.clockIrregular.r2 = shiftFeedback taps2 e.r2)
      ∧ (e.r2.getLsbD 10 ≠ m → e.clockIrregular.r2 = e.r2)
      ∧ (e.r3.getLsbD 10 = m → e.clockIrregular.r3 = shiftFeedback taps3 e.r3)
      ∧ (e.r3.getLsbD 10 ≠ m → e.clockIrregular.r3 = e.r3)

/-- R65: three registers clock when the control bits agree; otherwise exactly two do, and the one that holds
is the one whose control bit differs. -/
def Obligations.TwoOrThreeRegistersClock : Prop :=
  ∀ e : Engine,
    let c1 := e.r1.getLsbD 8
    let c2 := e.r2.getLsbD 10
    let c3 := e.r3.getLsbD 10
    (c1 = c2 ∧ c2 = c3 → e.clockIrregular = e.clockAll)
      ∧ (c2 = c3 ∧ c1 ≠ c2 → e.clockIrregular = { e.clockAll with r1 := e.r1 })
      ∧ (c1 = c3 ∧ c2 ≠ c1 → e.clockIrregular = { e.clockAll with r2 := e.r2 })
      ∧ (c1 = c2 ∧ c3 ≠ c1 → e.clockIrregular = { e.clockAll with r3 := e.r3 })

/-- R68: mixing a bit is ClockAll followed by an XOR of the bit into bit 1 of each register. -/
def Obligations.MixedBitLandsInBitOne : Prop :=
  ∀ (b : Bool) (e : Engine),
    e.mixBit b =
      { r1 := e.clockAll.r1 ^^^ (if b then 2 else 0)
        r2 := e.clockAll.r2 ^^^ (if b then 2 else 0)
        r3 := e.clockAll.r3 ^^^ (if b then 2 else 0) }

/-- R70: the zero engine is a fixed point of every primitive, gives output 0, and keystream commands on it
produce only zero bits and keep it. -/
def Obligations.ZeroEngineIsFixed : Prop :=
  Engine.zero.clockAll = Engine.zero ∧ Engine.zero.clockIrregular = Engine.zero
    ∧ Engine.zero.mixBit false = Engine.zero ∧ Engine.zero.outputBit = false
    ∧ ∀ (b : Block) (d : Byte), b.engine = Engine.zero →
        b.ksbit = { b with result := 0 } ∧ b.ksbyte = { b with result := 0 } ∧ b.enc d = { b with result := d }

/-- R71: zero is the only value a shift leaves alone, so a register that is not zero shows by its value
whether it clocked. -/
def Obligations.OnlyZeroSurvivesAShift : Prop :=
  (∀ v : BitVec 19, shiftFeedback taps1 v = v ↔ v = 0)
    ∧ (∀ v : BitVec 22, shiftFeedback taps2 v = v ↔ v = 0)
    ∧ (∀ v : BitVec 23, shiftFeedback taps3 v = v ↔ v = 0)
    ∧ ∀ e : Engine,
        (e.r1 ≠ 0 → (e.clockIrregular.r1 = e.r1 ↔ e.c1 ≠ e.majority))
          ∧ (e.r2 ≠ 0 → (e.clockIrregular.r2 = e.r2 ↔ e.c2 ≠ e.majority))
          ∧ (e.r3 ≠ 0 → (e.clockIrregular.r3 = e.r3 ↔ e.c3 ≠ e.majority))

/-! ## Commands -/

/-- R26: the key INIT uses is KEY_HI · 2^32 + KEY_LO, bit i of it from KEY_LO below 32 and from KEY_HI above. -/
def Obligations.KeyIsHighThenLow : Prop :=
  ∀ b : Block, b.key.toNat = b.keyHi.toNat * 2 ^ 32 + b.keyLo.toNat
    ∧ ∀ i < 32, b.key.getLsbD i = b.keyLo.getLsbD i ∧ b.key.getLsbD (32 + i) = b.keyHi.getLsbD i

/-- R72, R73: INIT completes; it zeroes the engine, mixes 64 key bits and 22 frame bits, least significant
first, takes 100 irregular steps and clears DOUT; KEY_LO, KEY_HI and FRAME keep their values. The first
keystream bit after it is the output of the 101st irregular step. -/
def Obligations.InitMixesAndWarmsUp : Prop :=
  ∀ s : State,
    let keyed := (List.range 64).foldl (fun e i => Engine.mixBit (s.block.key.getLsbD i) e) ⟨0, 0, 0⟩
    let mixed := (List.range 22).foldl (fun e i => Engine.mixBit (s.block.fn.getLsbD i) e) keyed
    ∃ t, exec .init s = .next t
      ∧ t.block.engine = Engine.clockIrregular^[100] mixed ∧ t.block.dout = 0
      ∧ t.block.keyLo = s.block.keyLo ∧ t.block.keyHi = s.block.keyHi ∧ t.block.fn = s.block.fn
      ∧ ∃ u, exec .ksbit t = .next u
          ∧ u.block.dout.getLsbD 0 = (Engine.clockIrregular^[101] mixed).outputBit

/-- R74: the state and DOUT after INIT depend on KEY and FRAME alone, and a second INIT changes nothing. -/
def Obligations.InitForgetsThePast : Prop :=
  ∀ (s : State) (e : Engine) (r : Byte),
    ∃ t u v, exec .init s = .next t
      ∧ exec .init { s with block := { s.block with engine := e, result := r } } = .next u
      ∧ exec .init t = .next v ∧ u.block = t.block ∧ v.block = t.block

/-- R75: KSBIT completes; it clocks once, then DOUT is the output bit, zero-extended; nothing else changes. On
the zero engine it gives 0 and keeps the engine zero. -/
def Obligations.KsbitClocksThenReads : Prop :=
  ∀ s : State,
    let e := s.block.engine.clockIrregular
    ∃ t, exec .ksbit s = .next t ∧ t.block.engine = e
      ∧ t.block.dout = (if (e.r1.getLsbD 18 ^^ e.r2.getLsbD 21) ^^ e.r3.getLsbD 22 then 1 else 0)
      ∧ t.block.keyLo = s.block.keyLo ∧ t.block.keyHi = s.block.keyHi ∧ t.block.fn = s.block.fn
      ∧ (s.block.engine = Engine.zero → t.block.engine = Engine.zero ∧ t.block.dout = 0)

/-- R76: KSBYTE completes; it takes eight irregular steps, the first output bit in bit 7 of DOUT and the
eighth in bit 0, bits 31:8 being 0; nothing else changes. -/
def Obligations.KsbytePacksFirstBitHighest : Prop :=
  ∀ s : State, ∃ t, exec .ksbyte s = .next t
    ∧ t.block.engine = Engine.clockIrregular^[8] s.block.engine
    ∧ (∀ j < 8, t.block.dout.getLsbD (7 - j) = (Engine.clockIrregular^[j + 1] s.block.engine).outputBit)
    ∧ (∀ i, 8 ≤ i → t.block.dout.getLsbD i = false)
    ∧ t.block.keyLo = s.block.keyLo ∧ t.block.keyHi = s.block.keyHi ∧ t.block.fn = s.block.fn

/-- R77: ENC d completes; it takes eight irregular steps whatever d is, and DOUT is d XOR the keystream byte,
zero-extended; nothing else changes. -/
def Obligations.EncXorsTheKeystreamByte : Prop :=
  ∀ (d : Byte) (s : State), ∃ t, exec (.enc d) s = .next t
    ∧ t.block.engine = Engine.clockIrregular^[8] s.block.engine
    ∧ (∀ j < 8, t.block.dout.getLsbD (7 - j)
        = (d.getLsbD (7 - j) ^^ (Engine.clockIrregular^[j + 1] s.block.engine).outputBit))
    ∧ (∀ i, 8 ≤ i → t.block.dout.getLsbD i = false)
    ∧ t.block.keyLo = s.block.keyLo ∧ t.block.keyHi = s.block.keyHi ∧ t.block.fn = s.block.fn

/-- R80: ENC 0x00 and KSBYTE have the same effect on every state. -/
def Obligations.EncZeroIsKsbyte : Prop :=
  ∀ s : State, ∃ t u, exec (.enc 0x00) s = .next t ∧ exec .ksbyte s = .next u
    ∧ t.block.engine = u.block.engine ∧ t.block.dout = u.block.dout

/-- R79: the byte of KSBYTE holds the bits of eight successive KSBITs from the same state, the first in bit 7,
and both reach the same engine. -/
def Obligations.KsbyteIsEightKsbits : Prop :=
  ∀ s : State, ∃ (bits : Nat → State) (t : State), bits 0 = s
    ∧ (∀ j < 8, exec .ksbit (bits j) = .next (bits (j + 1)))
    ∧ exec .ksbyte s = .next t ∧ t.block.engine = (bits 8).block.engine
    ∧ ∀ j < 8, t.block.dout.getLsbD (7 - j) = (bits (j + 1)).block.dout.getLsbD 0

/-- R78: with the engine n steps past an INIT, KSBIT consumes step n+1, KSBYTE and ENC consume steps n+1 to
n+8 in order, and an event that is neither a reset nor an accepted command consumes none. -/
def Obligations.KeystreamIsContinuous : Prop :=
  ∀ (s : State) (key : Key) (frame : Frame) (n : Nat) (d : Byte),
    let z := fun k => Engine.clockIrregular^[k] (initEngine key frame)
    s.block.engine = z n →
      (∃ t, exec .ksbit s = .next t ∧ t.block.engine = z (n + 1)
        ∧ t.block.dout.getLsbD 0 = (z (n + 1)).outputBit)
      ∧ (∃ t, exec .ksbyte s = .next t ∧ t.block.engine = z (n + 8)
        ∧ ∀ j < 8, t.block.dout.getLsbD (7 - j) = (z (n + 1 + j)).outputBit)
      ∧ (∃ t, exec (.enc d) s = .next t ∧ t.block.engine = z (n + 8)
        ∧ ∀ j < 8, t.block.dout.getLsbD (7 - j) = (d.getLsbD (7 - j) ^^ (z (n + 1 + j)).outputBit))
      ∧ ∀ ev q, s.pending = ev :: q → isReset ev = false → issued ev = none →
          ∃ t, step s = .next t ∧ t.block.engine = z n

/-- R88: INIT with KEY = 0 and FRAME = 0 leaves the zero engine, and every later keystream bit is 0. It does so
straight after reset. -/
def Obligations.InitWithZeroKeyIsSilent : Prop :=
  (∀ s : State, s.block.key = 0 ∧ s.block.fn = 0 →
      ∃ t, exec .init s = .next t ∧ t.block.engine = Engine.zero
        ∧ ∀ n, (Engine.clockIrregular^[n] t.block.engine).outputBit = false)
    ∧ State.reset.block.key = 0 ∧ State.reset.block.fn = 0

/-- R92 and the frame of every command: it completes on every state, and leaves the operand registers, the
pending events and the last response alone. -/
def Obligations.CommandsCompleteWithinTheirFrame : Prop :=
  ∀ (i : Instr) (s : State), ∃ t, exec i s = .next t
    ∧ t.block.keyLo = s.block.keyLo ∧ t.block.keyHi = s.block.keyHi ∧ t.block.fn = s.block.fn
    ∧ t.pending = s.pending ∧ t.response = s.response

/-! ## The port -/

/-- A step runs the decoded command: with a CMD write of a word that decodes at the front, the step is the
command's effect with the write taken from the pending events and answered OK (R21, R44; the pending events
and the recorded response are the model's, log entries 1 and 2). -/
def Obligations.StepRunsTheDecodedCommand : Prop :=
  ∀ (s : State) (w : Word) (i : Instr) (q : List PortEvent),
    s.pending = .transaction (.write 0x00 (.word w)) :: q → decode w = .ok i →
      ∃ t, exec i { s with pending := q } = .next t ∧ step s = .next { t with response := some .okWrite }

/-- R91, R102: a transaction is answered with ERROR exactly when the listed checks fail, under the first cause
in their order, and then the block is unchanged; any other transaction is answered without ERROR. -/
def Obligations.ErrorsAreExactlyTheListed : Prop :=
  ∀ (s : State) (t : Transaction) (q : List PortEvent),
    ∃ u, step { s with pending := .transaction t :: q } = .next u
      ∧ (∀ c, listedCause t = some c → u.response = some (.error c) ∧ u.block = s.block)
      ∧ (listedCause t = none → ∃ r, u.response = some r ∧ r.isError = false)

/-- R89: a step that ends in ERROR has changed nothing in the block, and the host sees the same answer for
every cause. -/
def Obligations.BusErrorHasNoEffect : Prop :=
  (∀ (s u : State) (c : BusError), step s = .next u → u.response = some (.error c) → u.block = s.block)
    ∧ ∀ c d : BusError, (Response.error c).hostView = (Response.error d).hostView

/-- R39: an accepted read of DOUT, KEY_LO, KEY_HI or FRAME returns the register and changes no state of the
block; a read of CMD or of a reserved offset is a bus error and changes none either. -/
def Obligations.ReadsHaveNoSideEffects : Prop :=
  (∀ (s : State) (q : List PortEvent) (off : Offset) (v : Word),
      (off = 0x04 ∧ v = s.block.result.setWidth 32) ∨ (off = 0x08 ∧ v = s.block.keyLo)
        ∨ (off = 0x0C ∧ v = s.block.keyHi) ∨ (off = 0x10 ∧ v = s.block.fn.setWidth 32) →
      ∃ u, step { s with pending := .transaction (.read off .word) :: q } = .next u
        ∧ u.response = some (.okRead v) ∧ u.block = s.block)
    ∧ ∀ (s : State) (q : List PortEvent) (off : Offset),
        off = 0x00 ∨ off = 0x14 ∨ off = 0x18 ∨ off = 0x1C →
        ∃ u c, step { s with pending := .transaction (.read off .word) :: q } = .next u
          ∧ u.response = some (.error c) ∧ u.block = s.block

/-- R23, R24: a write of KEY_LO or KEY_HI stores all 32 bits and changes nothing else, a read after it returns
the value, and both are 0 after reset. -/
def Obligations.KeyRegistersStoreTheirWrites : Prop :=
  (∀ (s : State) (w : Word) (q : List PortEvent), ∃ t u,
      step { s with pending := .transaction (.write 0x08 (.word w)) :: .transaction (.read 0x08 .word) :: q } = .next t
        ∧ t.response = some .okWrite ∧ t.block = { s.block with keyLo := w }
        ∧ step t = .next u ∧ u.response = some (.okRead w))
    ∧ (∀ (s : State) (w : Word) (q : List PortEvent), ∃ t u,
      step { s with pending := .transaction (.write 0x0C (.word w)) :: .transaction (.read 0x0C .word) :: q } = .next t
        ∧ t.response = some .okWrite ∧ t.block = { s.block with keyHi := w }
        ∧ step t = .next u ∧ u.response = some (.okRead w))
    ∧ State.reset.block.keyLo = 0 ∧ State.reset.block.keyHi = 0

/-- R25: a write of FRAME stores the low 22 bits, discards the rest and changes nothing else; a read after it
returns them zero-extended; FRAME is 0 after reset. -/
def Obligations.FrameKeepsTheLow22Bits : Prop :=
  (∀ (s : State) (w : Word) (q : List PortEvent), ∃ t u,
      step { s with pending := .transaction (.write 0x10 (.word w)) :: .transaction (.read 0x10 .word) :: q } = .next t
        ∧ t.response = some .okWrite ∧ t.block = { s.block with fn := w.extractLsb' 0 22 }
        ∧ step t = .next u ∧ u.response = some (.okRead (BitVec.ofNat 32 (w.toNat % 2 ^ 22))))
    ∧ State.reset.block.fn = 0

/-- R40: repeating a register write changes nothing more, while two identical KSBYTE commands give two
successive keystream bytes and advance the engine twice. -/
def Obligations.CommandsAreNotIdempotent : Prop :=
  (∀ (b : Block) (r : WriteReg) (w : Word), (b.writeReg r w).writeReg r w = b.writeReg r w)
    ∧ ∀ s : State, ∃ t u, exec .ksbyte s = .next t ∧ exec .ksbyte t = .next u
        ∧ u.block.engine = Engine.clockIrregular^[16] s.block.engine
        ∧ ∀ j < 8,
            t.block.dout.getLsbD (7 - j) = (Engine.clockIrregular^[j + 1] s.block.engine).outputBit
              ∧ u.block.dout.getLsbD (7 - j) = (Engine.clockIrregular^[j + 9] s.block.engine).outputBit

/-- R16: what each event does to (R1, R2, R3): a reset zeroes them, INIT sets them from KEY and FRAME, KSBIT
takes one irregular step, KSBYTE and ENC take eight, and no other step writes them. -/
def Obligations.OnlyCommandsAndResetMoveTheEngine : Prop :=
  ∀ s : State, ∃ t, step s = .next t
    ∧ t.block.engine =
        match s.pending with
        | [] => s.block.engine
        | ev :: _ =>
          if isReset ev then Engine.zero
          else
            match issued ev with
            | none => s.block.engine
            | some .init => initEngine s.block.key s.block.fn
            | some .ksbit => s.block.engine.clockIrregular
            | some .ksbyte => Engine.clockIrregular^[8] s.block.engine
            | some (.enc _) => Engine.clockIrregular^[8] s.block.engine

/-- R22: bits 31:8 of DOUT are 0; only a reset or a command changes DOUT; a write of DOUT is E_ACCESS without
effect; INIT and reset clear it. -/
def Obligations.OnlyCommandsAndResetWriteDout : Prop :=
  (∀ (b : Block) (i : Nat), 8 ≤ i → b.dout.getLsbD i = false)
    ∧ (∀ s t : State, step s = .next t → t.block.dout ≠ s.block.dout →
        ∃ ev q, s.pending = ev :: q ∧ (isReset ev = true ∨ ∃ i, issued ev = some i))
    ∧ (∀ (s : State) (w : Word) (q : List PortEvent),
        ∃ t, step { s with pending := .transaction (.write 0x04 (.word w)) :: q } = .next t
          ∧ t.response = some (.error .eAccess) ∧ t.block = s.block)
    ∧ (∀ s : State, ∃ t, exec .init s = .next t ∧ t.block.dout = 0)
    ∧ State.reset.block.dout = 0

/-- R23 to R25, R73: KEY_LO, KEY_HI and FRAME change only by a reset or by an accepted write of their own. -/
def Obligations.OperandsChangeOnlyByTheirWrites : Prop :=
  ∀ s t : State, step s = .next t →
    (t.block.keyLo ≠ s.block.keyLo → ∃ ev q, s.pending = ev :: q
        ∧ (isReset ev = true ∨ ev = .transaction (.write 0x08 (.word t.block.keyLo))))
      ∧ (t.block.keyHi ≠ s.block.keyHi → ∃ ev q, s.pending = ev :: q
        ∧ (isReset ev = true ∨ ev = .transaction (.write 0x0C (.word t.block.keyHi))))
      ∧ (t.block.fn ≠ s.block.fn → ∃ ev q, s.pending = ev :: q
        ∧ (isReset ev = true ∨ ∃ w, ev = .transaction (.write 0x10 (.word w)) ∧ t.block.fn = w.extractLsb' 0 22))

/-- R27, over whole runs: two machines with the same engine and the same pending events, none of which issues
INIT, keep the same engine for as long as they run, whatever their operand registers and DOUT hold. -/
def Obligations.EngineReadsOperandsOnlyAtInit : Prop :=
  ∀ (k : Nat) (s u : State), s.block.engine = u.block.engine → s.pending = u.pending →
    (∀ ev ∈ s.pending, issued ev ≠ some .init) →
      ∃ t v, runFor k s = .next t ∧ runFor k u = .next v ∧ t.block.engine = v.block.engine

/-- R17: no response depends on the engine: the host sees R1 to R3 only through what a command has left in
DOUT. -/
def Obligations.ResponsesDoNotShowTheEngine : Prop :=
  ∀ (s t u : State) (e : Engine), step s = .next t →
    step { s with block := { s.block with engine := e } } = .next u → u.response = t.response

/-- R33: the port is the block's total function from a state and a transaction to a state and a response. -/
def Obligations.PortIsTheBlockFunction : Prop :=
  ∀ (s : State) (t : Transaction) (q : List PortEvent),
    step { s with pending := .transaction t :: q }
      = .next { block := (s.block.step t).1, pending := q, response := some (s.block.step t).2 }

/-- R43: transactions take effect one at a time in acceptance order: as many steps as there are transactions
give the block that applying them in turn gives, and a sequence in two parts is the second part applied after
the first. -/
def Obligations.TransactionsApplyInOrder : Prop :=
  (∀ (ts : List Transaction) (s : State) (q : List PortEvent),
      ∃ t, runFor ts.length { s with pending := ts.map .transaction ++ q } = .next t
        ∧ t.block = (s.block.serve ts).1 ∧ t.pending = q)
    ∧ ∀ (b : Block) (xs ys : List Transaction),
        b.serve (xs ++ ys)
          = (((b.serve xs).1.serve ys).1, (b.serve xs).2 ++ ((b.serve xs).1.serve ys).2)

/-- R103: a reset event sets every register of the block to 0, from every state. -/
def Obligations.ResetEventClearsTheBlock : Prop :=
  ∀ (s : State) (q : List PortEvent), ∃ t, step { s with pending := .reset :: q } = .next t
    ∧ t.block = { engine := ⟨0, 0, 0⟩, keyLo := 0, keyHi := 0, fn := 0, result := 0 }

/-- R105: a reset that arrives during a command leaves exactly the reset state, and the write gets no OK. -/
def Obligations.ResetCutsACommandShort : Prop :=
  ∀ (s : State) (c : Transaction) (q : List PortEvent),
    ∃ t, step { s with pending := .resetDuring c :: q } = .next t
      ∧ t.block = State.reset.block ∧ t.response ≠ some .okWrite

/-- R32: the reset value of each field of the record. -/
def Obligations.ResetValues : Prop :=
  State.reset.block.engine.r1 = 0 ∧ State.reset.block.engine.r2 = 0 ∧ State.reset.block.engine.r3 = 0
    ∧ State.reset.block.keyLo = 0 ∧ State.reset.block.keyHi = 0 ∧ State.reset.block.fn = 0
    ∧ State.reset.block.result = 0

/-- R12: with nothing pending the state stays as it is (that the idle step is a step at all is the model's
choice, log entry 4). -/
def Obligations.NothingHappensByItself : Prop :=
  ∀ s : State, step { s with pending := [] } = .next { s with pending := [] }

/-- R102, R116: every step of the machine answers a next state. -/
def Obligations.EveryStepCompletes : Prop :=
  ∀ (k : Nat) (s : State), ∃ t, runFor k s = .next t

/-! ## Invariants -/

/-- R16, R78: every step keeps the engine on the keystream of some INIT. -/
def Obligations.StepStaysOnAKeystream : Prop :=
  ∀ s t : State, OnKeystream s → step s = .next t → OnKeystream t

/-- R88: the engine of the reset state is the one INIT leaves for key 0 and frame 0, zero steps past it, so the
reset state has the invariant. -/
def Obligations.ResetIsOnAKeystream : Prop :=
  State.reset.block.engine = initEngine 0 0 ∧ OnKeystream State.reset

/-- R64, R65, R72: every step keeps the pattern that irregular clocking leaves beside the control bits. -/
def Obligations.StepKeepsTheClockPattern : Prop :=
  ∀ s t : State, clockPattern s.block.engine → step s = .next t → clockPattern t.block.engine

/-- The pattern means what it should: the reset engine has it, every irregular step ends in it, and some
engine lacks it. -/
def Obligations.ClockPatternIsWhatClockingLeaves : Prop :=
  clockPattern State.reset.block.engine ∧ (∀ e : Engine, clockPattern e.clockIrregular)
    ∧ ∃ e : Engine, ¬clockPattern e

/-! ## The host-level operations -/

/-- R81: the sequence of `initialize(key, frame)` is answered OK throughout and leaves what INIT leaves for key
mod 2^64 and frame mod 2^22, for any integers. -/
def Obligations.HostInitTruncates : Prop :=
  ∀ (b : Block) (key frame : Int),
    (b.serve (hostInit key frame)).2 = [.okWrite, .okWrite, .okWrite, .okWrite]
      ∧ (b.serve (hostInit key frame)).1.engine
          = initEngine (BitVec.ofInt 64 key) (BitVec.ofInt 22 frame)
      ∧ (b.serve (hostInit key frame)).1.dout = 0

/-- R82: bit i of `generateKeystreamBits(n)` is the output of the (i+1)-th next step, and n = 0 is a no-op. -/
def Obligations.KeystreamBitsAreTheNextOutputs : Prop :=
  ∀ (b : Block) (n : Nat),
    (b.keystreamBits n).2
        = (List.range n).map (fun i => (Engine.clockIrregular^[i + 1] b.engine).outputBit)
      ∧ (b.keystreamBits n).1.engine = Engine.clockIrregular^[n] b.engine
      ∧ b.keystreamBits 0 = (b, [])

/-- R83: byte m of `generateKeystreamBytes(count)` packs bits 8m to 8m+7 (counted from 0) of
`generateKeystreamBits(8·count)` from the same state, the first in bit 7; count = 0 does nothing. -/
def Obligations.KeystreamBytesPackTheBits : Prop :=
  ∀ (b : Block) (count : Nat),
    (b.keystreamBytes count).2.length = count
      ∧ (∀ m < count, ∀ j < 8,
          ((b.keystreamBytes count).2[m]?).map (fun byte => byte.getLsbD (7 - j))
            = (b.keystreamBits (8 * count)).2[8 * m + j]?)
      ∧ b.keystreamBytes 0 = (b, [])

/-- R84: `encrypt(data)` is the byte-wise XOR of the data and the bytes that `generateKeystreamBytes` would
have given from the same state; the empty sequence does nothing. -/
def Obligations.EncryptXorsTheKeystream : Prop :=
  ∀ (b : Block) (data : List Byte),
    (b.encrypt data).2 = List.zipWith (fun d k => d ^^^ k) data (b.keystreamBytes data.length).2
      ∧ (b.encrypt data).2.length = data.length
      ∧ (b.encrypt data).1.engine = (b.keystreamBytes data.length).1.engine
      ∧ b.encrypt [] = (b, [])

/-- R85: what one block encrypts after INIT, another block with the same KEY and FRAME decrypts after INIT; so
does the same block when INIT is issued in between. -/
def Obligations.EncryptIsSelfInverseAfterInit : Prop :=
  ∀ (a b : Block) (data : List Byte), a.key = b.key → a.fn = b.fn →
    (b.init.encrypt (a.init.encrypt data).2).2 = data
      ∧ ((a.init.encrypt data).1.init.encrypt (a.init.encrypt data).2).2 = data

/-- R86: two encryptions without INIT in between use different keystream positions: the second starts where
the first ended; they do not in general give the data back, and on the zero engine they do. -/
def Obligations.EncryptTwiceIsNoInverse : Prop :=
  (∀ (b : Block) (data : List Byte),
      (b.encrypt data).1.engine = Engine.clockIrregular^[8 * data.length] b.engine)
    ∧ (∃ (b : Block) (data : List Byte), ((b.encrypt data).1.encrypt (b.encrypt data).2).2 ≠ data)
    ∧ ∀ (b : Block) (data : List Byte), b.engine = Engine.zero →
        ((b.encrypt data).1.encrypt (b.encrypt data).2).2 = data

/-- R36: key bytes packed with byte 0 lowest and written as two words give the key whose byte i is key byte i. -/
def Obligations.KeyBytesLandInOrder : Prop :=
  ∀ (b : Block) (k0 k1 k2 k3 k4 k5 k6 k7 : Byte),
    wordOfLanes k0 k1 k2 k3
        = k0.setWidth 32 ||| k1.setWidth 32 <<< 8 ||| k2.setWidth 32 <<< 16 ||| k3.setWidth 32 <<< 24
      ∧ ∀ i : Fin 8,
        ({ b with keyLo := wordOfLanes k0 k1 k2 k3, keyHi := wordOfLanes k4 k5 k6 k7 } : Block).key.extractLsb' (8 * i) 8
          = [k0, k1, k2, k3, k4, k5, k6, k7][i]

/-! ## The platform -/

/-- R34: an address selects the window exactly when it lies in its 32 bytes, and then at its distance from the
base. -/
def Obligations.AddressDecode : Prop :=
  ∀ (base a : Nat) (off : Offset),
    offsetIn base a = some off ↔ base ≤ a ∧ a < base + 32 ∧ off.toNat = a - base

/-- R8, R34: on a proper platform, an access that selects instance k takes effect there as the block function
says and leaves every other instance as it was. Two things here are the model's choice, not the spec's (log
entry 8): that a proper platform's windows do not overlap, and the second clause, that an access selecting no
window changes no instance and gets no response (R34 leaves what it does to the platform). -/
def Obligations.InstancesShareNoState : Prop :=
  ∀ (p : Platform) (h : HostAccess), p.wf = true →
    (∀ (k : Nat) (i : Instance) (off : Offset), p.instances[k]? = some i → offsetIn i.base h.addr = some off →
        serveAccess h p.instances
          = (p.instances.set k { i with block := (i.block.step (h.transaction off)).1 },
             some (i.block.step (h.transaction off)).2))
      ∧ ((∀ i ∈ p.instances, offsetIn i.base h.addr = none) → serveAccess h p.instances = (p.instances, none))

/-- R45, R97: what a schedule does. The accesses made are those the schedule picks, each master's in its
program order and each once; the instances are what serving them one after another leaves; and each master has
had the answers to its own accesses, in order. What serving one access does is InstancesShareNoState's. That a
master's list is fixed beforehand and reaches the interconnect as R45 requires is the model's choice, not the
spec's (log entry 9). -/
def Obligations.SchedulesKeepProgramOrder : Prop :=
  ∀ (p : Platform) (schedule : List Nat),
    let made := p.scheduled schedule
    let served := made.foldl
      (fun (done : List Instance × List (Nat × Option Response)) a =>
        ((serveAccess a.2 done.1).1, done.2 ++ [(a.1, (serveAccess a.2 done.1).2)]))
      (p.instances, [])
    (p.run schedule).instances = served.1
      ∧ served.2.map Prod.fst = made.map Prod.fst
      ∧ ∀ (m : Nat) (x : Master), p.masters[m]? = some x →
          (made.filter fun a => a.1 = m).map Prod.snd = x.todo.take (schedule.count m)
            ∧ (p.run schedule).masters[m]?
                = some { todo := x.todo.drop (schedule.count m)
                         answers := x.answers ++ (served.2.filter fun a => a.1 = m).map Prod.snd }
end

