-- ==== Sys2Proof/Laws/Decode.lean ====
section
/-! SUPPORT. What the decoder can answer, once: a command with its word, or one of two causes with the words
that have it. -/

namespace Sys2Proof

open Sys2Proof.Machine (BusError)

/-- Everything `decode` can answer (R54). -/
theorem decode_cases (w : Word) :
    (decode w = .error .eOpcode ∧ ¬(opField w = 1 ∨ opField w = 2 ∨ opField w = 3 ∨ opField w = 4))
      ∨ (decode w = .error .eRsvd ∧ (opField w = 1 ∨ opField w = 2 ∨ opField w = 3 ∨ opField w = 4)
          ∧ w &&& rsvdMask (opField w) ≠ 0)
      ∨ (decode w = .ok .init ∧ opField w = 1 ∧ w &&& 0xFFFFFFF0 = 0)
      ∨ (decode w = .ok .ksbit ∧ opField w = 2 ∧ w &&& 0xFFFFFFF0 = 0)
      ∨ (decode w = .ok .ksbyte ∧ opField w = 3 ∧ w &&& 0xFFFFFFF0 = 0)
      ∨ (decode w = .ok (.enc (dataField w)) ∧ opField w = 4 ∧ w &&& 0xFFFF00F0 = 0) := by
  by_cases hop : opField w = 1 ∨ opField w = 2 ∨ opField w = 3 ∨ opField w = 4
  · by_cases hr : w &&& rsvdMask (opField w) = 0
    · obtain h | h | h | h := hop <;> rw [h] at hr <;> simp_all [decode, rsvdMask]
    · exact .inr (.inl ⟨by rw [decode, if_neg (not_not.mpr hop), if_pos hr], hop, hr⟩)
  · exact .inl ⟨by rw [decode, if_pos hop], hop⟩

/-- A decoder's error is E_OPCODE or E_RSVD (R55, R56). -/
theorem decode_error {w : Word} {c : BusError} (h : decode w = .error c) : c = .eOpcode ∨ c = .eRsvd := by
  obtain ⟨hd, -⟩ | ⟨hd, -⟩ | ⟨hd, -⟩ | ⟨hd, -⟩ | ⟨hd, -⟩ | ⟨hd, -⟩ := decode_cases w <;>
    rw [hd] at h <;> cases h <;> simp

/-- ENC's data byte is in bits 15:8 of its word, and its OP in bits 3:0 (R50). -/
theorem encode_enc_fields (d : Byte) : dataField (encode (.enc d)) = d ∧ opField (encode (.enc d)) = 4 := by
  revert d
  decide

end Sys2Proof
end

