-- ==== Sys2Proof/Laws/Check.lean ====
section
/-! SUPPORT. What the checks of R91 can answer, once. -/

namespace Sys2Proof.Machine

/-- A 4-byte access that passes the alignment and the map addresses the register at that offset (R20). -/
theorem regAt_ok {off : Offset} {r : Reg} (h : regAt off = .ok r) : off = r.offset := by
  have last : ∀ off : Offset, off.extractLsb' 0 2 = 0 → ¬(off = 0x14 ∨ off = 0x18 ∨ off = 0x1C) →
      off ≠ 0x00 → off ≠ 0x04 → off ≠ 0x08 → off ≠ 0x0C → off = 0x10 := by decide
  unfold regAt at h
  split_ifs at h with h1 h2 h3 h4 h5 h6 <;> cases h
  · exact h3
  · exact h4
  · exact h5
  · exact h6
  · exact last off (not_not.mp h1) h2 h3 h4 h5 h6

/-- The causes of a 4-byte access's address (R28, R37). -/
theorem regAt_error {off : Offset} {c : BusError} (h : regAt off = .error c) :
    (c = .eAlign ∧ off.extractLsb' 0 2 ≠ 0)
      ∨ (c = .eUnmapped ∧ off.extractLsb' 0 2 = 0 ∧ (off = 0x14 ∨ off = 0x18 ∨ off = 0x1C)) := by
  unfold regAt at h
  split_ifs at h with h1 h2 <;> cases h
  · exact .inl ⟨rfl, h1⟩
  · exact .inr ⟨rfl, not_not.mp h1, h2⟩

/-- Every register is found at its offset. -/
@[simp] theorem regAt_offset (r : Reg) : regAt r.offset = .ok r := by
  cases r <;> decide

/-- Everything `check` can accept: a word read of a readable register, a word write of an RW register, or a
word write of CMD whose word decodes (R91). -/
theorem check_ok {t : Transaction} {a : Access} (h : check t = .ok a) :
    (∃ r : ReadReg, t = .read r.reg.offset .word ∧ a = .read r)
      ∨ (∃ (r : WriteReg) (w : Word), t = .write r.reg.offset (.word w) ∧ a = .write r w)
      ∨ ∃ (w : Word) (i : Instr), t = .write 0x00 (.word w) ∧ decode w = .ok i ∧ a = .command i := by
  cases t with
  | read off n =>
    cases n with
    | byte => cases h
    | half => cases h
    | word =>
      simp only [check] at h
      cases hr : regAt off with
      | error c => rw [hr] at h; cases h
      | ok r =>
        rw [hr] at h
        have ho := regAt_ok hr
        cases r with
        | cmd => cases h
        | dout => cases h; exact .inl ⟨.dout, by rw [ho]; rfl, rfl⟩
        | keyLo => cases h; exact .inl ⟨.keyLo, by rw [ho]; rfl, rfl⟩
        | keyHi => cases h; exact .inl ⟨.keyHi, by rw [ho]; rfl, rfl⟩
        | frame => cases h; exact .inl ⟨.frame, by rw [ho]; rfl, rfl⟩
  | write off v =>
    cases v with
    | byte v => cases h
    | half v => cases h
    | word w =>
      simp only [check] at h
      cases hr : regAt off with
      | error c => rw [hr] at h; cases h
      | ok r =>
        rw [hr] at h
        have ho := regAt_ok hr
        cases r with
        | cmd =>
          cases hd : decode w with
          | error c => simp only [Except.bind, writeAccess, hd, Except.map] at h; cases h
          | ok i =>
            simp only [Except.bind, writeAccess, hd, Except.map] at h
            cases h
            exact .inr (.inr ⟨w, i, by rw [ho]; rfl, hd, rfl⟩)
        | dout => cases h
        | keyLo => cases h; exact .inr (.inl ⟨.keyLo, w, by rw [ho]; rfl, rfl⟩)
        | keyHi => cases h; exact .inr (.inl ⟨.keyHi, w, by rw [ho]; rfl, rfl⟩)
        | frame => cases h; exact .inr (.inl ⟨.frame, w, by rw [ho]; rfl, rfl⟩)

/-- A word write of CMD is checked by the decoder alone (R54, R91). -/
theorem check_cmd (w : Word) : check (.write 0x00 (.word w)) = (decode w).map .command := rfl

end Sys2Proof.Machine
end

