-- ==== Sys2Proof/Laws/State.lean ====
section
/-! SUPPORT. One lemma per field for each named update of the block and the state. -/

namespace Sys2Proof.Machine

/-! ## `State.setBlock` -/

@[simp] theorem State.setBlock_block (s : State) (b : Block) : (s.setBlock b).block = b := rfl
@[simp] theorem State.setBlock_pending (s : State) (b : Block) : (s.setBlock b).pending = s.pending := rfl
@[simp] theorem State.setBlock_response (s : State) (b : Block) : (s.setBlock b).response = s.response := rfl

/-! ## `State.respond` and `State.raise` -/

@[simp] theorem State.respond_block (s : State) (r : Response) : (s.respond r).block = s.block := rfl
@[simp] theorem State.respond_pending (s : State) (r : Response) : (s.respond r).pending = s.pending := rfl
@[simp] theorem State.respond_response (s : State) (r : Response) : (s.respond r).response = some r := rfl
@[simp] theorem State.raise_block (s : State) (c : BusError) : (s.raise c).block = s.block := rfl
@[simp] theorem State.raise_pending (s : State) (c : BusError) : (s.raise c).pending = s.pending := rfl
@[simp] theorem State.raise_response (s : State) (c : BusError) : (s.raise c).response = some (.error c) := rfl

/-! ## `State.takeReset` -/

@[simp] theorem State.takeReset_block (s : State) : s.takeReset.block = Block.reset := rfl
@[simp] theorem State.takeReset_pending (s : State) : s.takeReset.pending = s.pending := rfl
@[simp] theorem State.takeReset_response (s : State) : s.takeReset.response = none := rfl

/-! ## `State.offerCommand` -/

@[simp] theorem State.offerCommand_block (s : State) (w : Word) : (s.offerCommand w).block = s.block := rfl
@[simp] theorem State.offerCommand_pending (s : State) (w : Word) :
    (s.offerCommand w).pending = .transaction (.write 0x00 (.word w)) :: s.pending := rfl
@[simp] theorem State.offerCommand_response (s : State) (w : Word) :
    (s.offerCommand w).response = s.response := rfl

/-! ## `Block.finish` -/

@[simp] theorem Block.finish_engine (b : Block) (e : Engine) (r : Byte) : (b.finish e r).engine = e := rfl
@[simp] theorem Block.finish_keyLo (b : Block) (e : Engine) (r : Byte) : (b.finish e r).keyLo = b.keyLo := rfl
@[simp] theorem Block.finish_keyHi (b : Block) (e : Engine) (r : Byte) : (b.finish e r).keyHi = b.keyHi := rfl
@[simp] theorem Block.finish_fn (b : Block) (e : Engine) (r : Byte) : (b.finish e r).fn = b.fn := rfl
@[simp] theorem Block.finish_result (b : Block) (e : Engine) (r : Byte) : (b.finish e r).result = r := rfl
@[simp] theorem Block.finish_dout (b : Block) (e : Engine) (r : Byte) :
    (b.finish e r).dout = r.setWidth 32 := rfl
@[simp] theorem Block.finish_key (b : Block) (e : Engine) (r : Byte) : (b.finish e r).key = b.key := rfl

/-! ## `Block.writeReg` -/

@[simp] theorem Block.writeReg_engine (b : Block) (r : WriteReg) (w : Word) :
    (b.writeReg r w).engine = b.engine := by cases r <;> rfl
@[simp] theorem Block.writeReg_result (b : Block) (r : WriteReg) (w : Word) :
    (b.writeReg r w).result = b.result := by cases r <;> rfl
@[simp] theorem Block.writeReg_dout (b : Block) (r : WriteReg) (w : Word) :
    (b.writeReg r w).dout = b.dout := by cases r <;> rfl
@[simp] theorem Block.writeReg_keyLo_keyLo (b : Block) (w : Word) : (b.writeReg .keyLo w).keyLo = w := rfl
@[simp] theorem Block.writeReg_keyLo_keyHi (b : Block) (w : Word) : (b.writeReg .keyLo w).keyHi = b.keyHi := rfl
@[simp] theorem Block.writeReg_keyLo_fn (b : Block) (w : Word) : (b.writeReg .keyLo w).fn = b.fn := rfl
@[simp] theorem Block.writeReg_keyHi_keyLo (b : Block) (w : Word) : (b.writeReg .keyHi w).keyLo = b.keyLo := rfl
@[simp] theorem Block.writeReg_keyHi_keyHi (b : Block) (w : Word) : (b.writeReg .keyHi w).keyHi = w := rfl
@[simp] theorem Block.writeReg_keyHi_fn (b : Block) (w : Word) : (b.writeReg .keyHi w).fn = b.fn := rfl
@[simp] theorem Block.writeReg_frame_keyLo (b : Block) (w : Word) : (b.writeReg .frame w).keyLo = b.keyLo := rfl
@[simp] theorem Block.writeReg_frame_keyHi (b : Block) (w : Word) : (b.writeReg .frame w).keyHi = b.keyHi := rfl
@[simp] theorem Block.writeReg_frame_fn (b : Block) (w : Word) :
    (b.writeReg .frame w).fn = w.setWidth 22 := rfl

/-! ## `Block.readReg` -/

@[simp] theorem Block.readReg_dout (b : Block) : b.readReg .dout = b.dout := rfl
@[simp] theorem Block.readReg_keyLo (b : Block) : b.readReg .keyLo = b.keyLo := rfl
@[simp] theorem Block.readReg_keyHi (b : Block) : b.readReg .keyHi = b.keyHi := rfl
@[simp] theorem Block.readReg_frame (b : Block) : b.readReg .frame = b.fn.setWidth 32 := rfl

/-! ## Reset -/

@[simp] theorem State.reset_block : State.reset.block = Block.reset := rfl
@[simp] theorem State.reset_pending : State.reset.pending = [] := rfl
@[simp] theorem State.reset_response : State.reset.response = none := rfl
@[simp] theorem Block.reset_engine : Block.reset.engine = Engine.zero := rfl

end Sys2Proof.Machine
end

