-- ==== Sys2Proof/Laws/Engine.lean ====
section
/-! SUPPORT. What each primitive of the engine does, once, so that no later proof unfolds it. -/

namespace Sys2Proof.Machine

/-! ## One register -/

/-- Bit 0 of a shifted register is the feedback, every other bit its lower neighbour (R61). -/
theorem shiftFeedback_getLsbD {n : Nat} (taps : List Nat) (r : BitVec n) (i : Nat) (h : i < n) :
    (shiftFeedback taps r).getLsbD i = if i = 0 then feedback taps r else r.getLsbD (i - 1) := by
  unfold shiftFeedback
  rw [BitVec.getLsbD_shiftConcat]
  by_cases hi : i = 0 <;> simp [hi, h]
  omega

/-- Bit i+1 of a shifted register is old bit i (R61). -/
theorem shiftFeedback_getLsbD_succ {n : Nat} (taps : List Nat) (r : BitVec n) (i : Nat) (h : i + 1 < n) :
    (shiftFeedback taps r).getLsbD (i + 1) = r.getLsbD i := by
  simp [shiftFeedback_getLsbD taps r (i + 1) h]

theorem feedback_zero {n : Nat} (taps : List Nat) : feedback taps 0#n = false := by
  simp [feedback]

@[simp] theorem shiftFeedback_zero {n : Nat} (taps : List Nat) : shiftFeedback taps 0#n = 0#n := by
  apply BitVec.eq_of_getLsbD_eq
  intro i hi
  rw [shiftFeedback_getLsbD taps _ i hi]
  split
  · simpa using feedback_zero taps
  · simp

@[simp] theorem xorBit0_false {n : Nat} (r : BitVec n) : xorBit0 r false = r := by
  simp [xorBit0]

/-! ## The majority -/

/-- The majority agrees with the first two bits whenever they agree. -/
theorem maj_of_eq {a b : Bool} (c : Bool) (h : a = b) : maj a b c = a := by
  subst h
  revert a c
  decide

/-- At most one of three bits differs from their majority, and then the other two agree with it (R65). -/
theorem maj_cases (a b c : Bool) :
    (a = maj a b c ∧ b = maj a b c ∧ c = maj a b c)
      ∨ (a ≠ maj a b c ∧ b = maj a b c ∧ c = maj a b c)
      ∨ (a = maj a b c ∧ b ≠ maj a b c ∧ c = maj a b c)
      ∨ (a = maj a b c ∧ b = maj a b c ∧ c ≠ maj a b c) := by
  revert a b c
  decide

/-! ## The zero engine -/

@[simp] theorem Engine.mixBit_false (e : Engine) : e.mixBit false = e.clockAll := by
  simp [Engine.mixBit]

theorem Engine.steps_succ (m : Nat) (e : Engine) : e.steps (m + 1) = (e.steps m).clockIrregular := rfl

/-- `steps` is the library's iteration of `clockIrregular`. -/
theorem Engine.steps_eq_iterate (m : Nat) (e : Engine) : e.steps m = Engine.clockIrregular^[m] e := by
  induction m with
  | zero => rfl
  | succ m ih => rw [Engine.steps_succ, ih, Function.iterate_succ_apply']

/-- Steps add up (R78). -/
theorem Engine.steps_add (m k : Nat) (e : Engine) : e.steps (m + k) = (e.steps k).steps m := by
  simp only [Engine.steps_eq_iterate, Function.iterate_add_apply]

/-! ## Keystream bytes -/

/-- After m rounds of `KsByte` the engine has taken m irregular steps (R76). -/
theorem ksByteRounds_fst (m : Nat) (e : Engine) : (ksByteRounds m e).1 = e.steps m := by
  induction m with
  | zero => rfl
  | succ m ih => simp only [ksByteRounds, ih, Engine.steps_succ]

/-- After m rounds, bit 7−j holds the output of step j+1 for j below m, and the bits of later rounds are
still 0 (R76). -/
theorem ksByteRounds_bit (m : Nat) (e : Engine) (hm : m ≤ 8) (j : Nat) (hj : j < 8) :
    (ksByteRounds m e).2.getLsbD (7 - j) = (decide (j < m) && (e.steps (j + 1)).outputBit) := by
  induction m with
  | zero => simp [ksByteRounds]
  | succ m ih =>
    simp only [ksByteRounds, BitVec.getLsbD_or, ih (by omega), ksByteRounds_fst, ← Engine.steps_succ]
    rcases Nat.lt_trichotomy j m with h | h | h
    · have h1 : ¬ (7 - j < 7 - m) := by omega
      have h2 : 7 - j - (7 - m) ≠ 0 := by omega
      simp [h, Nat.lt_succ_of_lt h, BitVec.getLsbD_shiftLeft, h2]
    · subst h
      simp [BitVec.getLsbD_shiftLeft]
      omega
    · have h1 : 7 - j < 7 - m := by omega
      have h2 : ¬ j < m + 1 := by omega
      simp [h1, h2, Nat.lt_asymm h, BitVec.getLsbD_shiftLeft]

@[simp] theorem ksByte_fst (e : Engine) : (ksByte e).1 = e.steps 8 :=
  ksByteRounds_fst 8 e

/-- Bit 7−j of a keystream byte is the output of the (j+1)-th step (R76). -/
theorem ksByte_bit (e : Engine) (j : Nat) (hj : j < 8) :
    (ksByte e).2.getLsbD (7 - j) = (e.steps (j + 1)).outputBit := by
  rw [ksByte, ksByteRounds_bit 8 e (le_refl 8) j hj]
  simp [hj]

/-! ## Mixing -/

theorem mixLow_succ {n : Nat} (v : BitVec n) (m : Nat) (e : Engine) :
    mixLow v (m + 1) e = (mixLow v m e).mixBit (v.getLsbD m) := rfl

/-- Mixing in order is a fold over the bit numbers (R72). -/
theorem mixLow_eq_foldl {n : Nat} (v : BitVec n) (m : Nat) (e : Engine) :
    mixLow v m e = (List.range m).foldl (fun e i => e.mixBit (v.getLsbD i)) e := by
  induction m with
  | zero => rfl
  | succ m ih => rw [mixLow_succ, ih, List.range_succ, List.foldl_append]; rfl

end Sys2Proof.Machine
end

