-- ==== Sys2Proof/Laws/PerInstr.lean ====
section
/-! SUPPORT. Statements made command by command, about the command as syntax. -/

namespace Sys2Proof.Laws.EncodeLegal

/-- The word of a command is one of the 259 legal words (R57), and its mnemonic is a row of the opcode table
that the word matches. -/
def Statement (i : Instr) : Prop :=
  i.wf = true ∧ legalWord (encode i) = true
    ∧ ∃ row ∈ opcodeTable, row.1 = i.mnemonic ∧ matchesRow row (encode i) = true

theorem init : Statement .init := by
  unfold Statement
  decide

theorem ksbit : Statement .ksbit := by
  unfold Statement
  decide

theorem ksbyte : Statement .ksbyte := by
  unfold Statement
  decide

theorem enc (d : Byte) : Statement (.enc d) := by
  refine ⟨rfl, ?_, ("ENC", 0xFFFF00FF, 0x00000004), by simp [opcodeTable], rfl, ?_⟩ <;> revert d <;> decide

end Sys2Proof.Laws.EncodeLegal
end

