-- ==== Sys2Proof/Laws/Port.lean ====
section
/-! SUPPORT. What each operation of the port can answer, once: provers cite these and do not unfold the
operations. -/

namespace Sys2Proof.Machine

/-! ## Commands -/

/-- Every command answers a next state: the same state with the command's effect on the block (R92). -/
theorem exec_eq (i : Instr) (s : State) : exec i s = .next (s.setBlock (s.block.command i)) := by
  cases i <;> rfl

/-- The engine a command leaves (R72, R75 to R77). -/
theorem Block.command_engine (b : Block) (i : Instr) :
    (b.command i).engine =
      match i with
      | .init => initEngine b.key b.fn
      | .ksbit => b.engine.clockIrregular
      | .ksbyte => b.engine.steps 8
      | .enc _ => b.engine.steps 8 := by
  cases i <;> simp [Block.command, Block.init, Block.ksbit, Block.ksbyte, Block.enc]

/-- No command writes the operand registers (R73). -/
@[simp] theorem Block.command_keyLo (b : Block) (i : Instr) : (b.command i).keyLo = b.keyLo := by cases i <;> rfl
@[simp] theorem Block.command_keyHi (b : Block) (i : Instr) : (b.command i).keyHi = b.keyHi := by cases i <;> rfl
@[simp] theorem Block.command_fn (b : Block) (i : Instr) : (b.command i).fn = b.fn := by cases i <;> rfl

/-! ## One access, one transaction, one event -/

/-- Everything `perform` does: it always answers, by the kind of access. -/
theorem perform_eq (a : Access) (s : State) :
    perform a s = .next (match a with
      | .read r => s.respond (.okRead (s.block.readReg r))
      | .write r w => (s.setBlock (s.block.writeReg r w)).respond .okWrite
      | .command i => (s.setBlock (s.block.command i)).respond .okWrite) := by
  cases a with
  | read r => rfl
  | write r w => rfl
  | command i => simp only [perform, exec_eq]

/-- Everything `accept` can do, by what the checks say (R91). -/
theorem accept_next {t : Transaction} {s u : State} (h : accept t s = .next u) :
    (∃ c, check t = .error c ∧ u = s.raise c)
      ∨ (∃ r, check t = .ok (.read r) ∧ u = s.respond (.okRead (s.block.readReg r)))
      ∨ (∃ r w, check t = .ok (.write r w) ∧ u = (s.setBlock (s.block.writeReg r w)).respond .okWrite)
      ∨ ∃ i, check t = .ok (.command i) ∧ u = (s.setBlock (s.block.command i)).respond .okWrite := by
  unfold accept at h
  split at h
  · next a ha =>
    rw [perform_eq] at h
    cases h
    cases a with
    | read r => exact .inr (.inl ⟨r, ha, rfl⟩)
    | write r w => exact .inr (.inr (.inl ⟨r, w, ha, rfl⟩))
    | command i => exact .inr (.inr (.inr ⟨i, ha, rfl⟩))
  · next c hc =>
    cases h
    exact .inl ⟨c, hc, rfl⟩

/-- `accept` always answers a next state (R102). -/
theorem accept_completes (t : Transaction) (s : State) : ∃ u, accept t s = .next u := by
  unfold accept
  split
  · exact ⟨_, perform_eq _ s⟩
  · exact ⟨_, rfl⟩

/-- `handle` always answers a next state. -/
theorem handle_completes (ev : PortEvent) (s : State) : ∃ u, handle ev s = .next u := by
  cases ev with
  | transaction t => exact accept_completes t s
  | reset => exact ⟨_, rfl⟩
  | resetDuring t => exact ⟨_, rfl⟩

/-- Everything a step can do: nothing, a reset, an error response, a read, a register write, or a command. -/
theorem step_next {s u : State} (h : step s = .next u) :
    (s.pending = [] ∧ u = s)
      ∨ ∃ ev q, s.pending = ev :: q ∧
          ((isReset ev = true ∧ u = ({ s with pending := q } : State).takeReset)
            ∨ ∃ t, ev = .transaction t ∧
              ((∃ c, check t = .error c ∧ u = ({ s with pending := q } : State).raise c)
                ∨ (∃ r, check t = .ok (.read r)
                    ∧ u = ({ s with pending := q } : State).respond (.okRead (s.block.readReg r)))
                ∨ (∃ r w, check t = .ok (.write r w)
                    ∧ u = (({ s with pending := q } : State).setBlock (s.block.writeReg r w)).respond .okWrite)
                ∨ ∃ i, check t = .ok (.command i)
                    ∧ u = (({ s with pending := q } : State).setBlock (s.block.command i)).respond .okWrite)) := by
  unfold step serveNext at h
  split at h
  · next hp =>
    cases h
    exact .inl ⟨hp, rfl⟩
  · next ev q hp =>
    refine .inr ⟨ev, q, hp, ?_⟩
    cases ev with
    | transaction t => exact .inr ⟨t, rfl, accept_next h⟩
    | reset =>
      cases h
      exact .inl ⟨rfl, rfl⟩
    | resetDuring t =>
      cases h
      exact .inl ⟨rfl, rfl⟩

/-- The step on a given event is that event's effect, with the event taken. -/
theorem step_cons (s : State) (ev : PortEvent) (q : List PortEvent) (h : s.pending = ev :: q) :
    step s = handle ev { s with pending := q } := by
  simp [step, serveNext, h]

/-- A transaction issues a command exactly when its checks end in one. -/
theorem issued_eq_some {t : Transaction} {i : Instr} (h : check t = .ok (.command i)) :
    issued (.transaction t) = some i := by
  simp [issued, h]

end Sys2Proof.Machine
end

