-- ==== Sys2Proof/Tests/Slice0.lean ====
section
/-! SUPPORT. The model's own tests. Expected values are those of spec/95_test_vectors.md, which its writer
derived from the rules; the section is named at each test. Then, for every statement with hypotheses, a concrete
witness that they can be met together. -/

namespace Sys2Proof.Tests

open Sys2Proof Sys2Proof.Machine

/-! ## Helpers -/

/-- The engine after INIT with key 0xEFCDAB8967452301 and frame 0 (95 §2.6 row S-b). -/
def engineSb : Engine :=
  { r1 := 0x05837, r2 := 0x0B0AAB, r3 := 0x4DBFD3 }

/-- A block with a given engine and all else as after reset. -/
def blockWith (e : Engine) : Block :=
  { Block.reset with engine := e }

/-- A state about to handle one event. -/
def stateWith (b : Block) (ev : PortEvent) : State :=
  { block := b, pending := [ev], response := none }

/-- The next state of an outcome, if it has one. -/
def next? (o : Host.Outcome State Fault Refusal) : Option State :=
  match o with
  | .next t => some t
  | .fault _ => none
  | .refused _ => none

/-- The block and the response after one step on a transaction. -/
def onTransaction (b : Block) (t : Transaction) : Option (Block × Option Response) :=
  (next? (step (stateWith b (.transaction t)))).map fun u => (u.block, u.response)

/-- The engine and DOUT after a command. -/
def onCommand (b : Block) (i : Instr) : Option (Engine × Word) :=
  (next? (exec i (stateWith b .reset))).map fun u => (u.block.engine, u.block.dout)

/-- One instance at base 0 and two masters that both use KEY_LO. -/
def twoMasters : Platform :=
  { instances := [⟨0, Block.reset⟩]
    masters := [⟨[.write 0x08 (.word 1), .read 0x08 .word], []⟩, ⟨[.write 0x08 (.word 2)], []⟩] }

/-! ## Well-formedness: each check refuses an ill-formed term -/

theorem test_legalWord_refuses_reserved_op : legalWord 0x00000000 = false ∧ legalWord 0x0000000F = false := by
  decide
theorem test_legalWord_refuses_low_reserved_bit : legalWord 0x00000011 = false ∧ legalWord 0x000000F4 = false := by
  decide
theorem test_legalWord_refuses_high_reserved_bit : legalWord 0x80000001 = false ∧ legalWord 0x00010004 = false := by
  decide
theorem test_legalWord_refuses_data_outside_enc : legalWord 0x00000103 = false ∧ legalWord 0x0000FF04 = true := by
  decide
theorem test_legalBase_refuses_misaligned : legalBase 0x40000010 = false ∧ legalBase 0x40000020 = true := by
  decide
theorem test_platform_refuses_misaligned_base :
    Platform.wf { instances := [{ base := 4, block := Block.reset }], masters := [] } = false := by
  decide
theorem test_platform_refuses_shared_base :
    Platform.wf { instances := [{ base := 32, block := Block.reset }, { base := 32, block := Block.reset }]
                  masters := [] } = false := by
  decide
theorem test_every_command_is_wf :
    Instr.init.wf = true ∧ Instr.ksbit.wf = true ∧ Instr.ksbyte.wf = true ∧ (Instr.enc 0xFF).wf = true := by
  decide

/-! ## Decode: words written out from R50 and R51, and the rows of 95 §2.10 -/

theorem test_decode_init : decode 0b00000000000000000000000000000001 = .ok .init := by decide
theorem test_decode_ksbit : decode 0b00000000000000000000000000000010 = .ok .ksbit := by decide
theorem test_decode_ksbyte : decode 0b00000000000000000000000000000011 = .ok .ksbyte := by decide
theorem test_decode_enc : decode 0b00000000000000000100100000000100 = .ok (.enc 0x48) := by decide
theorem test_decode_enc_extremes :
    decode 0x00000004 = .ok (.enc 0x00) ∧ decode 0x0000FF04 = .ok (.enc 0xFF) := by decide
theorem test_decode_opcode_before_reserved :
    decode 0x80000007 = .error .eOpcode ∧ decode 0x00000000 = .error .eOpcode
      ∧ decode 0x00000005 = .error .eOpcode ∧ decode 0x0000000F = .error .eOpcode := by decide
theorem test_decode_reserved :
    decode 0x00000011 = .error .eRsvd ∧ decode 0x00000012 = .error .eRsvd ∧ decode 0x00000101 = .error .eRsvd
      ∧ decode 0x00000103 = .error .eRsvd ∧ decode 0x80000001 = .error .eRsvd
      ∧ decode 0x00010004 = .error .eRsvd ∧ decode 0x000000F4 = .error .eRsvd := by decide
theorem test_encode_enc : encode (.enc 0x48) = 0x00004804 := by decide
theorem test_table_word : decodeTableWord 32 0x0000FF04 = some (.enc 0xFF) ∧ decodeTableWord 8 0xFF04 = some (.enc 0x00)
    ∧ decodeTableWord 40 0x0100000001 = none := by decide

/-! ## Primitives: 95 §2.1 to §2.5 -/

theorem test_shift_r1 :
    shiftFeedback taps1 0x40000#19 = 0x00001 ∧ shiftFeedback taps1 0x02000#19 = 0x04001
      ∧ shiftFeedback taps1 0x7FFFF#19 = 0x7FFFE ∧ shiftFeedback taps1 0x12345#19 = 0x2468A := by decide
theorem test_shift_r2 :
    shiftFeedback taps2 0x300000#22 = 0x200000 ∧ shiftFeedback taps2 0x100000#22 = 0x200001
      ∧ shiftFeedback taps2 0x3FFFFF#22 = 0x3FFFFE := by decide
theorem test_shift_r3 :
    shiftFeedback taps3 0x000080#23 = 0x000101 ∧ shiftFeedback taps3 0x700080#23 = 0x600100
      ∧ shiftFeedback taps3 0x123456#23 = 0x2468AD := by decide
theorem test_maj : maj true false true = true ∧ maj false true false = false := by decide
theorem test_clockIrregular_r1_holds :
    Engine.clockIrregular ⟨0x40100, 0x200000, 0x400000⟩ = ⟨0x40100, 0x000001, 0x000001⟩ := by decide
theorem test_clockIrregular_r2_holds :
    Engine.clockIrregular ⟨0x40100, 0x200000, 0x400400⟩ = ⟨0x00201, 0x200000, 0x000801⟩ := by decide
theorem test_clockIrregular_r3_holds :
    Engine.clockIrregular ⟨0x40100, 0x200400, 0x400000⟩ = ⟨0x00201, 0x000801, 0x400000⟩ := by decide
theorem test_clockIrregular_all_clock :
    Engine.clockIrregular ⟨0x40100, 0x200400, 0x400400⟩ = ⟨0x00201, 0x000801, 0x000801⟩ := by decide
theorem test_outputBit :
    Engine.outputBit ⟨0x40000, 0x200000, 0x400000⟩ = true
      ∧ Engine.outputBit ⟨0x3FFFF, 0x1FFFFF, 0x3FFFFF⟩ = false := by decide
theorem test_mixBit : Engine.mixBit true Engine.zero = ⟨0x00002, 0x000002, 0x000002⟩ := by decide
theorem test_mixing_key_one :
    mixLow 1#64 64 Engine.zero = ⟨0x76480, 0x100003, 0x555B02⟩ := by decide +kernel

/-! ## Commands: 95 §2.6 to §2.9 -/

theorem test_init_key_sb : initEngine 0xEFCDAB8967452301 0 = engineSb := by decide +kernel
theorem test_init_frame :
    onCommand { Block.reset with fn := 0x3FFFFF, result := 0xAA } .init
      = some (⟨0x266E2, 0x300001, 0x05CFB2⟩, 0x00000000) := by decide +kernel
theorem test_ksbit_r3_holds :
    onCommand (blockWith engineSb) .ksbit = some (⟨0x0B06E, 0x161556, 0x4DBFD3⟩, 0x00000001) := by decide
theorem test_ksbit_zero_bit :
    onCommand (blockWith ⟨0x0B06E, 0x2C2AAD, 0x1B7FA6⟩) .ksbit
      = some (⟨0x160DD, 0x18555B, 0x1B7FA6⟩, 0x00000000) := by decide
theorem test_ksbyte :
    onCommand (blockWith engineSb) .ksbyte = some (⟨0x60DD4, 0x0555BA, 0x5BFD31⟩, 0x000000DA) := by decide
theorem test_ksbyte_after_one_bit :
    onCommand (blockWith ⟨0x0B06E, 0x161556, 0x4DBFD3⟩) .ksbyte
      = some (⟨0x41BA8, 0x0AAB74, 0x37FA62⟩, 0x000000B5) := by decide
theorem test_enc_h :
    onCommand (blockWith engineSb) (.enc 0x48) = some (⟨0x60DD4, 0x0555BA, 0x5BFD31⟩, 0x00000092) := by decide
theorem test_enc_ff :
    onCommand (blockWith ⟨0x54170, 0x018180, 0x7AAC4A⟩) (.enc 0xFF)
      = some (⟨0x05C17, 0x206002, 0x2B12A0⟩, 0x0000006E) := by decide

/-! ## Transactions: 95 §2.11 and §2.12 -/

theorem test_read_cmd : onTransaction Block.reset (.read 0x00 .word) = some (Block.reset, some (.error .eAccess)) := by
  decide
theorem test_write_dout :
    onTransaction Block.reset (.write 0x04 (.word 1)) = some (Block.reset, some (.error .eAccess)) := by decide
theorem test_reserved_offset :
    onTransaction Block.reset (.write 0x1C (.word 0)) = some (Block.reset, some (.error .eUnmapped)) := by decide
theorem test_misaligned : onTransaction Block.reset (.read 0x02 .word) = some (Block.reset, some (.error .eAlign)) := by
  decide
theorem test_size_before_alignment :
    onTransaction Block.reset (.write 0x02 (.half 1)) = some (Block.reset, some (.error .eSize)) := by decide
theorem test_byte_write_is_no_command :
    onTransaction (blockWith engineSb) (.write 0x00 (.byte 0x03)) = some (blockWith engineSb, some (.error .eSize)) := by
  decide
theorem test_frame_truncates :
    onTransaction Block.reset (.write 0x10 (.word 0xFFFFFFFF))
      = some ({ Block.reset with fn := 0x3FFFFF }, some .okWrite) := by decide
theorem test_read_frame :
    onTransaction { Block.reset with fn := 0x3FFFFF } (.read 0x10 .word)
      = some ({ Block.reset with fn := 0x3FFFFF }, some (.okRead 0x003FFFFF)) := by decide
theorem test_write_key_lo :
    onTransaction (blockWith engineSb) (.write 0x08 (.word 0xDEADBEEF))
      = some ({ blockWith engineSb with keyLo := 0xDEADBEEF }, some .okWrite) := by decide
theorem test_read_dout :
    onTransaction { Block.reset with result := 0xDA } (.read 0x04 .word)
      = some ({ Block.reset with result := 0xDA }, some (.okRead 0x000000DA)) := by decide
theorem test_reset_event :
    next? (step (stateWith { Block.reset with keyLo := 7, keyHi := 8, fn := 9, result := 10 } .reset))
      = some State.reset := by decide
theorem test_reset_from_power_up :
    next? (step { State.powerUp with pending := [.reset] }) = some State.reset := by rfl
theorem test_fetch_word_runs_first :
    (next? (step (State.reset.withFetchWord 32 0x00005A04))).map (fun t => (t.block, t.response))
      = some ({ Block.reset with result := 0x5A }, some .okWrite) := by decide
theorem test_codes :
    [BusError.eSize, .eAlign, .eUnmapped, .eAccess, .eOpcode, .eRsvd].map BusError.code = [1, 2, 3, 4, 5, 6] := by
  decide

/-! ## Host operations and platform: R34, R60, R81 -/

theorem test_setup_lines :
    Asm.expand (.setup 0xEFCDAB8967452301 0)
      = [.write 0x08 (.word 0x67452301), .write 0x0C (.word 0xEFCDAB89), .write 0x10 (.word 0),
         .write 0x00 (.word 0x00000001)] := by decide
theorem test_encb_lines :
    Asm.expand (.encb 0x48) = [.write 0x00 (.word 0x00004804), .read 0x04 .word] := by decide
theorem test_host_init_negative_key :
    hostInit (-1) (2 ^ 22 + 1)
      = [.write 0x08 (.word 0xFFFFFFFF), .write 0x0C (.word 0xFFFFFFFF), .write 0x10 (.word 0x00400001),
         .write 0x00 (.word 0x00000001)] := by decide
theorem test_address_decode :
    offsetIn 0x40 0x5F = some 0x1F ∧ offsetIn 0x40 0x60 = none ∧ offsetIn 0x40 0x3F = none := by decide

/-- R112: another master's write comes between a master's write and its read; the last two grants find nothing
left to do. -/
theorem test_interleaving :
    ((twoMasters.run [0, 1, 0, 1, 0]).masters[0]?).map Master.answers
        = some [some .okWrite, some (.okRead 2)]
      ∧ twoMasters.scheduled [0, 1, 0, 1, 0]
        = [(0, .write 0x08 (.word 1)), (1, .write 0x08 (.word 2)), (0, .read 0x08 .word)] := by decide

/-! ## Witnesses: the hypotheses of the statements can be met -/

/-- CompleteEncodings, IllegalWordsChangeNothing and WordsAreLegalOrOneError: reserved opcodes at both ends of
their range, and reserved bits at both ends of each field. -/
theorem witness_reserved_opcodes :
    ((0x00000000 : Word).toNat % 16 = 0) ∧ 5 ≤ (0x00000005 : Word).toNat % 16
      ∧ 5 ≤ (0xFFFFFFFF : Word).toNat % 16 := by decide
theorem witness_reserved_fields :
    ((0x00000011 : Word).extractLsb' 0 4 = 1 ∧ (0x00000011 : Word).extractLsb' 4 28 ≠ 0)
      ∧ ((0x80000002 : Word).extractLsb' 0 4 = 2 ∧ (0x80000002 : Word).extractLsb' 4 28 ≠ 0)
      ∧ ((0x00000103 : Word).extractLsb' 0 4 = 3 ∧ (0x00000103 : Word).extractLsb' 4 28 ≠ 0)
      ∧ ((0x00010004 : Word).extractLsb' 0 4 = 4 ∧ (0x00010004 : Word).extractLsb' 16 16 ≠ 0)
      ∧ ((0x00000014 : Word).extractLsb' 0 4 = 4 ∧ (0x00000014 : Word).extractLsb' 4 4 ≠ 0) := by decide
/-- DecodeEncodeAgree: a well-formed command and an accepted word. -/
theorem witness_decode_accepts : (Instr.enc 0xFF).wf = true ∧ decode 0x0000FF04 = .ok (.enc 0xFF) := by decide
/-- TableRowsDecide: a row of the table, and a word that matches it. -/
theorem witness_table_row :
    ("ENC", 0xFFFF00FF, 0x00000004) ∈ opcodeTable ∧ matchesRow ("ENC", 0xFFFF00FF, 0x00000004) 0x0000FF04 = true := by
  decide
/-- MajorityDecidesWhatClocks, TwoOrThreeRegistersClock: engines in which R1, R2, R3 and none of them differ. -/
theorem witness_control_bits :
    let m := fun e : Engine => (e.c1, e.c2, e.c3, e.majority)
    m ⟨0x40100, 0x200000, 0x400000⟩ = (true, false, false, false)
      ∧ m ⟨0x40000, 0x200400, 0x400000⟩ = (false, true, false, false)
      ∧ m ⟨0x40000, 0x200000, 0x400400⟩ = (false, false, true, false)
      ∧ m ⟨0x40100, 0x200400, 0x400400⟩ = (true, true, true, true) := by decide
/-- OnlyZeroSurvivesAShift: an engine with no register zero. -/
theorem witness_nonzero_registers : engineSb.r1 ≠ 0 ∧ engineSb.r2 ≠ 0 ∧ engineSb.r3 ≠ 0 := by decide
/-- ZeroEngineIsFixed, KsbitClocksThenReads, EncryptTwiceIsNoInverse: a block with the zero engine. -/
theorem witness_zero_engine : (blockWith Engine.zero).engine = Engine.zero ∧ State.reset.block.engine = Engine.zero := by
  decide
/-- KeystreamIsContinuous: an engine three steps past an INIT, with an event that issues no command. -/
theorem witness_on_keystream :
    let s := stateWith (blockWith (Engine.clockIrregular^[3] (initEngine 5 7))) (.transaction (.read 0x04 .word))
    s.block.engine = Engine.clockIrregular^[3] (initEngine 5 7)
      ∧ s.pending = .transaction (.read 0x04 .word) :: []
      ∧ isReset (.transaction (.read 0x04 .word)) = false ∧ issued (.transaction (.read 0x04 .word)) = none :=
  ⟨rfl, rfl, rfl, by decide⟩
/-- InitWithZeroKeyIsSilent: a state with key 0 and frame 0 that is not the reset state. -/
theorem witness_zero_key :
    let s := stateWith (blockWith engineSb) .reset
    s.block.key = 0 ∧ s.block.fn = 0 := by decide
/-- StepRunsTheDecodedCommand: a CMD write of a word that decodes, at the front. -/
theorem witness_command_at_front :
    (stateWith Block.reset (.transaction (.write 0x00 (.word 0x00004804)))).pending
        = .transaction (.write 0x00 (.word 0x00004804)) :: []
      ∧ decode 0x00004804 = .ok (.enc 0x48) := by decide
/-- ErrorsAreExactlyTheListed: a transaction for each cause, and one for none. -/
theorem witness_listed_causes :
    listedCause (.read 0x08 .byte) = some .eSize ∧ listedCause (.read 0x1F .word) = some .eAlign
      ∧ listedCause (.write 0x1C (.word 0)) = some .eUnmapped ∧ listedCause (.read 0x00 .word) = some .eAccess
      ∧ listedCause (.write 0x04 (.word 1)) = some .eAccess
      ∧ listedCause (.write 0x00 (.word 0x80000007)) = some .eOpcode
      ∧ listedCause (.write 0x00 (.word 0x00000012)) = some .eRsvd
      ∧ listedCause (.write 0x00 (.word 0x0000FF04)) = none ∧ listedCause (.read 0x10 .word) = none := by decide
/-- BusErrorHasNoEffect: a step that ends in ERROR. -/
theorem witness_error_step :
    (next? (step (stateWith (blockWith engineSb) (.transaction (.read 0x14 .word))))).map State.response
      = some (some (.error .eUnmapped)) := by decide
/-- OnlyCommandsAndResetWriteDout: a step that changes DOUT. -/
theorem witness_dout_changes :
    (next? (step (stateWith (blockWith engineSb) (.transaction (.write 0x00 (.word 0x00000002)))))).map
        (fun t => t.block.dout) = some 1
      ∧ (blockWith engineSb).dout = 0 := by decide
/-- OperandsChangeOnlyByTheirWrites: steps that change KEY_LO, KEY_HI and FRAME. -/
theorem witness_operands_change :
    (onTransaction Block.reset (.write 0x08 (.word 1))).map (fun r => r.1.keyLo) = some 1
      ∧ (onTransaction Block.reset (.write 0x0C (.word 1))).map (fun r => r.1.keyHi) = some 1
      ∧ (onTransaction Block.reset (.write 0x10 (.word 1))).map (fun r => r.1.fn) = some 1 := by decide
/-- ReadsHaveNoSideEffects: the four readable registers of one block, with the values the rule gives. -/
theorem witness_readable_values :
    let b : Block := { engine := engineSb, keyLo := 3, keyHi := 4, fn := 5, result := 6 }
    (0x00000006 : Word) = b.result.setWidth 32 ∧ (3 : Word) = b.keyLo ∧ (4 : Word) = b.keyHi
      ∧ (0x00000005 : Word) = b.fn.setWidth 32 := by decide
/-- EngineReadsOperandsOnlyAtInit: two states that differ in their keys and DOUT, with a command pending. -/
theorem witness_same_engine_other_shell :
    let ev := PortEvent.transaction (.write 0x00 (.word 0x00000003))
    let s := stateWith (blockWith engineSb) ev
    let u := stateWith { engine := engineSb, keyLo := 1, keyHi := 2, fn := 3, result := 4 } ev
    s.block.engine = u.block.engine ∧ s.pending = u.pending ∧ (∀ e ∈ s.pending, issued e ≠ some .init)
      ∧ s.block ≠ u.block := by decide
/-- ResponsesDoNotShowTheEngine: two steps from states that differ in the engine. -/
theorem witness_two_engines :
    (∃ t, step (stateWith (blockWith engineSb) (.transaction (.read 0x04 .word))) = .next t)
      ∧ ∃ u, step (stateWith (blockWith Engine.zero) (.transaction (.read 0x04 .word))) = .next u :=
  ⟨⟨_, rfl⟩, ⟨_, rfl⟩⟩
/-- StepStaysOnAKeystream: a state on a keystream, and its step. -/
theorem witness_keystream_step :
    ∃ s t, OnKeystream s ∧ step s = .next t ∧ s.block.engine ≠ t.block.engine :=
  ⟨stateWith (blockWith (initEngine 0xEFCDAB8967452301 0)) .reset, _, ⟨_, _, 0, rfl⟩, rfl, by decide +kernel⟩
/-- StepKeepsTheClockPattern: a state with the pattern that is not the zero state, and its step. -/
theorem witness_pattern_step :
    ∃ s t, clockPattern s.block.engine ∧ step s = .next t ∧ s.block.engine ≠ t.block.engine :=
  ⟨stateWith (blockWith engineSb) (.transaction (.write 0x00 (.word 0x00000002))), _,
   by unfold clockPattern; decide, rfl, by decide⟩
/-- EncryptIsSelfInverseAfterInit: two blocks with the same key and frame and different engines. -/
theorem witness_same_key_two_blocks :
    let a := blockWith engineSb
    let b := blockWith Engine.zero
    a.key = b.key ∧ a.fn = b.fn ∧ a ≠ b := by decide
/-- KeystreamBytesPackTheBits: a byte and a bit number in range. -/
theorem witness_byte_and_bit_in_range : 0 < 1 ∧ 7 < 8 := by decide
/-- InstancesShareNoState: a proper platform of two instances, an access to the second, and one to neither. -/
theorem witness_two_instances :
    let p : Platform := { instances := [⟨0x40, Block.reset⟩, ⟨0x60, blockWith engineSb⟩], masters := [] }
    p.wf = true ∧ p.instances[1]? = some ⟨0x60, blockWith engineSb⟩
      ∧ offsetIn 0x60 (HostAccess.read 0x64 .word).addr = some 0x04
      ∧ ∀ i ∈ p.instances, offsetIn i.base (HostAccess.read 0x80 .word).addr = none := by decide
/-- SchedulesKeepProgramOrder: a platform whose masters have two accesses and one. -/
theorem witness_master :
    twoMasters.masters[0]? = some ⟨[.write 0x08 (.word 1), .read 0x08 .word], []⟩
      ∧ twoMasters.masters[1]? = some ⟨[.write 0x08 (.word 2)], []⟩ := by decide

end Sys2Proof.Tests
end

section
/-! # Scope: what happens by itself, and what an access does on a platform (R8, R12, R34) -/

namespace Sys2Proof.Machine

/-! ## The idle step -/

/-- A step with nothing pending leaves the state as it is (R12). -/
theorem step_of_pending_eq_nil {s : State} (h : s.pending = []) : step s = .next s := by
  simp [step, serveNext, h]

/-! ## Windows -/

/-- An address selects the window at `base` exactly when it lies in it (R34). -/
theorem offsetIn_isSome_iff {base a : Nat} : (offsetIn base a).isSome ↔ base ≤ a ∧ a < base + 32 := by
  simp [offsetIn]

theorem legalBase_iff {base : Nat} : legalBase base = true ↔ base % 32 = 0 := by
  simp [legalBase]

/-- The windows at two different legal bases do not overlap: 32-byte windows at 32-byte aligned bases. -/
theorem offsetIn_eq_none_of_selected {base base' a : Nat} {off : Offset}
    (hb : legalBase base = true) (hb' : legalBase base' = true)
    (hne : base' ≠ base) (hsel : offsetIn base a = some off) : offsetIn base' a = none := by
  rw [legalBase_iff] at hb hb'
  have hin : base ≤ a ∧ a < base + 32 := offsetIn_isSome_iff.mp (by simp [hsel])
  rw [← Option.not_isSome_iff_eq_none, offsetIn_isSome_iff]
  omega

/-- What a proper platform is, as propositions. -/
theorem Platform.wf_iff {p : Platform} :
    p.wf = true ↔ p.instances ≠ [] ∧ (∀ i ∈ p.instances, legalBase i.base = true)
      ∧ (p.instances.map Instance.base).Nodup := by
  simp [Platform.wf, and_assoc]

/-- On a proper platform, an access to a window selects none of those before it. -/
theorem Platform.wf_not_selected_before {p : Platform} (hwf : p.wf = true) {pre post : List Instance}
    {i : Instance} (hp : p.instances = pre ++ i :: post) {a : Nat} {off : Offset}
    (hsel : offsetIn i.base a = some off) : ∀ j ∈ pre, offsetIn j.base a = none := by
  obtain ⟨-, hlegal, hnodup⟩ := Platform.wf_iff.mp hwf
  rw [hp] at hlegal hnodup
  intro j hj
  have hne : j.base ≠ i.base := by
    rw [List.map_append, List.map_cons, List.nodup_append] at hnodup
    obtain ⟨-, -, hdisjoint⟩ := hnodup
    exact hdisjoint _ (List.mem_map_of_mem hj) _ List.mem_cons_self
  exact offsetIn_eq_none_of_selected (hlegal i (by simp)) (hlegal j (by simp [hj])) hne hsel

/-! ## Serving an access -/

/-- An access to the first window is answered there, and the others do not see it (R8). -/
theorem serveAccess_cons_of_selected {h : HostAccess} {i : Instance} {off : Offset} (rest : List Instance)
    (hsel : offsetIn i.base h.addr = some off) :
    serveAccess h (i :: rest)
      = ({ i with block := (i.block.step (h.transaction off)).1 } :: rest,
         some (i.block.step (h.transaction off)).2) := by
  simp [serveAccess, hsel]

/-- Instances whose windows an access does not select leave it to those after them (R34). -/
theorem serveAccess_append_of_not_selected {h : HostAccess} {pre : List Instance} (rest : List Instance)
    (hpre : ∀ i ∈ pre, offsetIn i.base h.addr = none) :
    serveAccess h (pre ++ rest) = (pre ++ (serveAccess h rest).1, (serveAccess h rest).2) := by
  induction pre with
  | nil => rfl
  | cons i pre ih =>
    obtain ⟨hi, hpre⟩ := List.forall_mem_cons.mp hpre
    simp [serveAccess, hi, ih hpre]

/-- An access that selects no window changes nothing and has no answer (log entry 8). -/
theorem serveAccess_of_not_selected {h : HostAccess} {l : List Instance}
    (hl : ∀ i ∈ l, offsetIn i.base h.addr = none) : serveAccess h l = (l, none) := by
  simpa [serveAccess] using serveAccess_append_of_not_selected [] hl

/-- An access to a window in the middle, and to none before it, changes the block there alone. -/
theorem serveAccess_middle_of_selected {h : HostAccess} {i : Instance} {off : Offset} {pre : List Instance}
    (post : List Instance) (hpre : ∀ j ∈ pre, offsetIn j.base h.addr = none)
    (hsel : offsetIn i.base h.addr = some off) :
    serveAccess h (pre ++ i :: post)
      = (pre ++ { i with block := (i.block.step (h.transaction off)).1 } :: post,
         some (i.block.step (h.transaction off)).2) := by
  rw [serveAccess_append_of_not_selected _ hpre, serveAccess_cons_of_selected _ hsel]

end Sys2Proof.Machine

namespace Sys2Proof.Proofs

open Sys2Proof.Machine

/-- Settles O42: the idle step of R12. -/
theorem nothingHappensByItself : Obligations.NothingHappensByItself := by
  intro s
  exact step_of_pending_eq_nil rfl

/-- Settles O56: aligned windows at different bases do not overlap, so the instances before the selected one pass
the access on, and it is served where it is selected. -/
theorem instancesShareNoState : Obligations.InstancesShareNoState := by
  intro p h hwf
  refine ⟨fun k i off hk hsel => ?_, serveAccess_of_not_selected⟩
  obtain ⟨hlt, rfl⟩ := List.getElem?_eq_some_iff.mp hk
  have hsplit : p.instances = p.instances.take k ++ p.instances[k] :: p.instances.drop (k + 1) := by
    rw [List.cons_getElem_drop_succ, List.take_append_drop]
  have hbefore := Platform.wf_not_selected_before hwf hsplit hsel
  rw [List.set_eq_take_append_cons_drop, if_pos hlt, ← serveAccess_middle_of_selected _ hbefore hsel, ← hsplit]

end Sys2Proof.Proofs
end

section
/-! # State: what each step does to the engine and the registers, and what it leaves alone (10_state.md) -/

namespace Sys2Proof.Machine

/-! ## The checks on the registers' own transactions -/

/-- A word write of an RW register passes every check (R20, R91). -/
@[simp] theorem check_write_offset (r : WriteReg) (w : Word) :
    check (.write r.reg.offset (.word w)) = .ok (.write r w) := by
  cases r <;> rfl

/-- A word read of a readable register passes every check (R20, R91). -/
@[simp] theorem check_read_offset (r : ReadReg) : check (.read r.reg.offset .word) = .ok (.read r) := by
  cases r <;> rfl

/-! ## One step, in closed form -/

/-- `accept` is the block function of R33, its response recorded. -/
theorem accept_eq (t : Transaction) (s : State) :
    accept t s = .next ((s.setBlock (s.block.step t).1).respond (s.block.step t).2) := by
  cases hc : check t with
  | error c => simp only [accept, Block.step, hc]; rfl
  | ok a =>
    simp only [accept, Block.step, hc, perform_eq]
    cases a <;> rfl

/-- The step on a transaction at the front of the pending events. -/
theorem step_transaction {s : State} {t : Transaction} {q : List PortEvent} (h : s.pending = .transaction t :: q) :
    step s = .next { block := (s.block.step t).1, pending := q, response := some (s.block.step t).2 } := by
  rw [step_cons s _ q h]
  exact accept_eq t _

/-- A write of an RW register stores, and is answered OK (R23 to R25, R40). -/
theorem step_write_offset {s : State} {q : List PortEvent} (r : WriteReg) (w : Word)
    (h : s.pending = .transaction (.write r.reg.offset (.word w)) :: q) :
    step s = .next { block := s.block.writeReg r w, pending := q, response := some .okWrite } := by
  simp [step_transaction h, Block.step]

/-- A read of a readable register answers its value and changes nothing (R39). -/
theorem step_read_offset {s : State} {q : List PortEvent} (r : ReadReg)
    (h : s.pending = .transaction (.read r.reg.offset .word) :: q) :
    step s = .next { block := s.block, pending := q, response := some (.okRead (s.block.readReg r)) } := by
  simp [step_transaction h, Block.step]

/-- A transaction that fails a check is answered ERROR under its cause and changes nothing (R89). -/
theorem step_of_check_error {s : State} {t : Transaction} {c : BusError} {q : List PortEvent}
    (h : s.pending = .transaction t :: q) (hc : check t = .error c) :
    step s = .next { block := s.block, pending := q, response := some (.error c) } := by
  simp [step_transaction h, Block.step, hc]

/-- Every step answers a next state (R102). -/
theorem step_completes (s : State) : ∃ t, step s = .next t := by
  cases h : s.pending with
  | nil => exact ⟨s, step_of_pending_eq_nil h⟩
  | cons ev q => rw [step_cons s ev q h]; exact handle_completes ev _

/-- Every step takes the event at the front, and no other (R43). -/
theorem step_pending {s t : State} (h : step s = .next t) : t.pending = s.pending.tail := by
  obtain ⟨hp, rfl⟩ | ⟨ev, q, hp, ⟨-, rfl⟩ | ⟨tr, -, ⟨c, -, rfl⟩ | ⟨r, -, rfl⟩ | ⟨r, w, -, rfl⟩ | ⟨i, -, rfl⟩⟩⟩ :=
    step_next h <;> simp [hp]

/-- k+1 steps are a step and then k. -/
theorem runFor_succ_of_step {s t : State} (k : Nat) (h : step s = .next t) : runFor (k + 1) s = runFor k t := by
  simp [runFor, h]

/-! ## What an event does to the block -/

/-- What event `ev` can make of block `b`: the reset block, a command's effect, a register write, or nothing. -/
inductive BlockEffect (b : Block) (ev : PortEvent) (b' : Block) : Prop where
  | reset (hev : isReset ev = true) (hb : b' = Block.reset)
  | command (i : Instr) (hev : isReset ev = false) (hissued : issued ev = some i) (hb : b' = b.command i)
  | write (r : WriteReg) (w : Word) (hev : ev = .transaction (.write r.reg.offset (.word w)))
      (hb : b' = b.writeReg r w)
  | keep (hev : isReset ev = false) (hissued : issued ev = none) (hb : b' = b)

/-- A transaction that no check turns into a command issues none. -/
theorem issued_eq_none {t : Transaction} (h : ∀ i, check t ≠ .ok (.command i)) : issued (.transaction t) = none := by
  cases hc : check t with
  | error c => simp [issued, hc]
  | ok a =>
    cases a with
    | read r => simp [issued, hc]
    | write r w => simp [issued, hc]
    | command i => exact absurd hc (h i)

/-- A register write issues no command. -/
@[simp] theorem issued_write_offset (r : WriteReg) (w : Word) :
    issued (.transaction (.write r.reg.offset (.word w))) = none :=
  issued_eq_none (by simp)

/-- What a step does to the block: nothing when nothing is pending, and otherwise the effect of the event at the
front. -/
theorem step_blockEffect {s t : State} (h : step s = .next t) :
    (s.pending = [] ∧ t = s) ∨ ∃ ev q, s.pending = ev :: q ∧ BlockEffect s.block ev t.block := by
  obtain hidle | ⟨ev, q, hp, ⟨hev, rfl⟩ | ⟨tr, rfl, hcases⟩⟩ := step_next h
  · exact .inl hidle
  · exact .inr ⟨ev, q, hp, .reset hev rfl⟩
  · refine .inr ⟨_, q, hp, ?_⟩
    obtain ⟨c, hc, rfl⟩ | ⟨r, hc, rfl⟩ | ⟨r, w, hc, rfl⟩ | ⟨i, hc, rfl⟩ := hcases
    · exact .keep rfl (issued_eq_none (by simp [hc])) rfl
    · exact .keep rfl (issued_eq_none (by simp [hc])) rfl
    · obtain ⟨_, -, ha⟩ | ⟨r', w', rfl, ha⟩ | ⟨_, _, -, -, ha⟩ := check_ok hc <;> cases ha
      exact .write r w rfl rfl
    · exact .command i rfl (issued_eq_some hc) rfl

/-! ## The engine -/

@[simp] theorem Engine.clockAll_zero : Engine.zero.clockAll = Engine.zero := by
  simp [Engine.clockAll, Engine.zero]

/-- Whichever registers clock, the zero engine stays zero (R70). -/
@[simp] theorem Engine.clockIrregular_zero : Engine.zero.clockIrregular = Engine.zero := by
  simp [Engine.clockIrregular, Engine.zero]

@[simp] theorem Engine.zero_steps (m : Nat) : Engine.zero.steps m = Engine.zero := by
  induction m with
  | zero => rfl
  | succ m ih => rw [Engine.steps_succ, ih, Engine.clockIrregular_zero]

/-- Mixing zero bits keeps the zero engine (R70). -/
@[simp] theorem mixLow_zero_zero {n : Nat} (m : Nat) : mixLow 0#n m Engine.zero = Engine.zero := by
  induction m with
  | zero => rfl
  | succ m ih => simp [mixLow_succ, ih]

/-- INIT with key 0 and frame 0 leaves the zero engine (R88). -/
@[simp] theorem initEngine_zero : initEngine 0 0 = Engine.zero := by
  simp [initEngine]

/-- Every command but INIT takes some number of irregular steps (R16). -/
theorem Block.command_engine_cases (b : Block) (i : Instr) :
    (b.command i).engine = initEngine b.key b.fn ∨ ∃ m, (b.command i).engine = b.engine.steps m := by
  cases i with
  | init => exact .inl (b.command_engine .init)
  | ksbit => exact .inr ⟨1, b.command_engine .ksbit⟩
  | ksbyte => exact .inr ⟨8, b.command_engine .ksbyte⟩
  | enc d => exact .inr ⟨8, b.command_engine (.enc d)⟩

/-- Every step zeroes the engine, sets it as INIT does, or takes some number of irregular steps, none included
(R16). -/
theorem step_engine_cases {s t : State} (h : step s = .next t) :
    t.block.engine = Engine.zero ∨ t.block.engine = initEngine s.block.key s.block.fn
      ∨ ∃ m, t.block.engine = s.block.engine.steps m := by
  obtain ⟨-, rfl⟩ | ⟨ev, q, -, heff⟩ := step_blockEffect h
  · exact .inr (.inr ⟨0, rfl⟩)
  · cases heff with
    | reset hev hb => exact .inl (by rw [hb, Block.reset_engine])
    | command i hev hissued hb => rw [hb]; exact .inr (s.block.command_engine_cases i)
    | write r w hev hb => exact .inr (.inr ⟨0, by rw [hb, Block.writeReg_engine]; rfl⟩)
    | keep hev hissued hb => exact .inr (.inr ⟨0, by rw [hb]; rfl⟩)

/-! ## DOUT and the operand registers -/

/-- RESULT is all of DOUT that is not constant 0 (R22). -/
theorem Block.dout_getLsbD_of_ge (b : Block) {i : Nat} (h : 8 ≤ i) : b.dout.getLsbD i = false := by
  simp [Block.dout, BitVec.getLsbD_of_ge b.result i h]

/-- A register that no command changes, and of the register writes only those of `reg`, is changed by a reset or by
a write of `reg` alone. -/
theorem step_changes_operand {α : Type} {field : Block → α} {reg : WriteReg}
    (hcommand : ∀ b i, field (b.command i) = field b)
    (hwrite : ∀ b r w, r ≠ reg → field (b.writeReg r w) = field b)
    {s t : State} (h : step s = .next t) (hne : field t.block ≠ field s.block) :
    ∃ ev q, s.pending = ev :: q ∧ (isReset ev = true
      ∨ ∃ w, ev = .transaction (.write reg.reg.offset (.word w)) ∧ t.block = s.block.writeReg reg w) := by
  obtain ⟨-, rfl⟩ | ⟨ev, q, hp, heff⟩ := step_blockEffect h
  · exact absurd rfl hne
  · refine ⟨ev, q, hp, ?_⟩
    cases heff with
    | reset hev hb => exact .inl hev
    | command i hev hissued hb => rw [hb] at hne; exact absurd (hcommand _ i) hne
    | write r w hev hb =>
      obtain rfl : r = reg := by
        by_contra hr
        rw [hb] at hne
        exact hne (hwrite _ r w hr)
      exact .inr ⟨w, hev, hb⟩
    | keep hev hissued hb => rw [hb] at hne; exact absurd rfl hne

/-- The key as a number (R26). -/
theorem Block.key_toNat (b : Block) : b.key.toNat = b.keyHi.toNat * 2 ^ 32 + b.keyLo.toNat := by
  rw [Block.key, BitVec.toNat_append, ← Nat.shiftLeft_add_eq_or_of_lt b.keyLo.isLt, Nat.shiftLeft_eq]

/-- What the block answers to a transaction does not depend on its engine (R17). -/
theorem Block.step_response_engine (b : Block) (e : Engine) (t : Transaction) :
    (Block.step { b with engine := e } t).2 = (b.step t).2 := by
  cases hc : check t with
  | error c => simp [Block.step, hc]
  | ok a =>
    cases a with
    | read r => simp only [Block.step, hc]; cases r <;> rfl
    | write r w => simp [Block.step, hc]
    | command i => simp [Block.step, hc]

/-- Two machines with the same events and the same last response, whose blocks answer alike, give the same response
in one step: only a transaction is answered, and the block function gives the answer. -/
theorem step_response_congr {s u t v : State} (ht : step s = .next t) (hv : step u = .next v)
    (hp : s.pending = u.pending) (hr : s.response = u.response)
    (hanswer : ∀ tr, (s.block.step tr).2 = (u.block.step tr).2) : t.response = v.response := by
  cases hs : s.pending with
  | nil =>
    rw [step_of_pending_eq_nil hs] at ht
    rw [step_of_pending_eq_nil (hp ▸ hs)] at hv
    cases ht
    cases hv
    exact hr
  | cons ev q =>
    rw [step_cons s ev q hs] at ht
    rw [step_cons u ev q (hp ▸ hs)] at hv
    cases ev with
    | transaction tr =>
      rw [handle, accept_eq] at ht hv
      cases ht
      cases hv
      exact congrArg some (hanswer tr)
    | reset => cases ht; cases hv; rfl
    | resetDuring tr => cases ht; cases hv; rfl

end Sys2Proof.Machine

namespace Sys2Proof.Proofs

open Sys2Proof.Machine

/-- Settles O44: INIT starts a keystream, the zero engine of a reset is on that of key 0 and frame 0, and every other
step goes on along the present one. -/
theorem stepStaysOnAKeystream : Obligations.StepStaysOnAKeystream := by
  rintro s t ⟨key, frame, n, hs⟩ h
  obtain ht | ht | ⟨m, ht⟩ := step_engine_cases h
  · exact ⟨0, 0, 0, by rw [ht, initEngine_zero, Engine.zero_steps]⟩
  · exact ⟨s.block.key, s.block.fn, 0, ht⟩
  · exact ⟨key, frame, m + n, by rw [ht, hs, Engine.steps_add]⟩

/-- Settles O32, by what the event at the front does to the block. -/
theorem onlyCommandsAndResetMoveTheEngine : Obligations.OnlyCommandsAndResetMoveTheEngine := by
  intro s
  obtain ⟨t, ht⟩ := step_completes s
  refine ⟨t, ht, ?_⟩
  obtain ⟨hp, rfl⟩ | ⟨ev, q, hp, heff⟩ := step_blockEffect ht
  · rw [hp]
  · rw [hp]
    cases heff with
    | reset hev hb => simp [hev, hb]
    | command i hev hissued hb =>
      rw [hb, Block.command_engine]
      cases i <;> simp [hev, hissued, Engine.steps_eq_iterate]
    | write r w hev hb => simp [hev, hb, isReset]
    | keep hev hissued hb => simp [hev, hissued, hb]

/-- Settles O33: of what an event can do to the block, only a reset or a command reaches RESULT. -/
theorem onlyCommandsAndResetWriteDout : Obligations.OnlyCommandsAndResetWriteDout := by
  refine ⟨fun b i hi => b.dout_getLsbD_of_ge hi, fun s t h hne => ?_, fun s w q => ?_, fun s => ?_, rfl⟩
  · obtain ⟨-, rfl⟩ | ⟨ev, q, hp, heff⟩ := step_blockEffect h
    · exact absurd rfl hne
    · refine ⟨ev, q, hp, ?_⟩
      cases heff with
      | reset hev hb => exact .inl hev
      | command i hev hissued hb => exact .inr ⟨i, hissued⟩
      | write r w hev hb => simp [hb] at hne
      | keep hev hissued hb => simp [hb] at hne
  · exact ⟨_, step_of_check_error rfl rfl, rfl, rfl⟩
  · exact ⟨_, exec_eq .init s, rfl⟩

/-- Settles O34: one argument for the three registers. -/
theorem operandsChangeOnlyByTheirWrites : Obligations.OperandsChangeOnlyByTheirWrites := by
  intro s t h
  refine ⟨fun hne => ?_, fun hne => ?_, fun hne => ?_⟩
  · obtain ⟨ev, q, hp, hev | ⟨w, hev, hb⟩⟩ := step_changes_operand (field := Block.keyLo) (reg := .keyLo)
      Block.command_keyLo (fun b r w hr => by cases r <;> simp at hr ⊢) h hne
    · exact ⟨ev, q, hp, .inl hev⟩
    · exact ⟨ev, q, hp, .inr (by rw [hev, hb]; rfl)⟩
  · obtain ⟨ev, q, hp, hev | ⟨w, hev, hb⟩⟩ := step_changes_operand (field := Block.keyHi) (reg := .keyHi)
      Block.command_keyHi (fun b r w hr => by cases r <;> simp at hr ⊢) h hne
    · exact ⟨ev, q, hp, .inl hev⟩
    · exact ⟨ev, q, hp, .inr (by rw [hev, hb]; rfl)⟩
  · obtain ⟨ev, q, hp, hev | ⟨w, hev, hb⟩⟩ := step_changes_operand (field := Block.fn) (reg := .frame)
      Block.command_fn (fun b r w hr => by cases r <;> simp at hr ⊢) h hne
    · exact ⟨ev, q, hp, .inl hev⟩
    · refine ⟨ev, q, hp, .inr ⟨w, hev, ?_⟩⟩
      rw [hb, Block.writeReg_frame_fn, BitVec.setWidth_eq_extractLsb' (by decide)]

/-- One step of two machines with the same engine and the same pending events, none of which issues INIT, keeps the
engines equal (R27): what O32 says a step does to the engine then reads nothing but the engine. -/
theorem step_engine_congr {s u : State} (he : s.block.engine = u.block.engine) (hp : s.pending = u.pending)
    (hinit : ∀ ev ∈ s.pending, issued ev ≠ some .init) :
    ∃ t v, step s = .next t ∧ step u = .next v ∧ t.block.engine = v.block.engine := by
  obtain ⟨t, ht, hte⟩ := onlyCommandsAndResetMoveTheEngine s
  obtain ⟨v, hv, hve⟩ := onlyCommandsAndResetMoveTheEngine u
  refine ⟨t, v, ht, hv, ?_⟩
  rw [hte, hve, ← hp, he]
  cases hs : s.pending with
  | nil => rfl
  | cons ev q =>
    have hev : issued ev ≠ some .init := hinit ev (by simp [hs])
    cases hi : issued ev with
    | none => simp [hi]
    | some i =>
      cases i with
      | init => exact absurd hi hev
      | ksbit => simp [hi]
      | ksbyte => simp [hi]
      | enc d => simp [hi]

/-- Settles O35, by induction on the number of steps. -/
theorem engineReadsOperandsOnlyAtInit : Obligations.EngineReadsOperandsOnlyAtInit := by
  intro k
  induction k with
  | zero => exact fun s u he _ _ => ⟨s, u, rfl, rfl, he⟩
  | succ k ih =>
    intro s u he hp hinit
    obtain ⟨t, v, ht, hv, hte⟩ := step_engine_congr he hp hinit
    rw [runFor_succ_of_step k ht, runFor_succ_of_step k hv]
    refine ih t v hte (by rw [step_pending ht, step_pending hv, hp]) fun ev hev => hinit ev ?_
    rw [step_pending ht] at hev
    exact List.mem_of_mem_tail hev

/-- Settles O36: of all the block holds, only the engine differs, and no answer reads it. -/
theorem responsesDoNotShowTheEngine : Obligations.ResponsesDoNotShowTheEngine := by
  intro s t u e ht hu
  exact step_response_congr hu ht rfl rfl (s.block.step_response_engine e)

/-- Settles O14: KEY is the two registers appended, KEY_HI above. -/
theorem keyIsHighThenLow : Obligations.KeyIsHighThenLow := by
  refine fun b => ⟨b.key_toNat, fun i hi => ⟨?_, ?_⟩⟩
  · rw [Block.key, BitVec.getLsbD_append, if_pos hi]
  · rw [Block.key, BitVec.getLsbD_append, if_neg (by omega), Nat.add_sub_cancel_left]

/-- Settles O25: the decoder alone checks a CMD write, and the block function runs the command. -/
theorem stepRunsTheDecodedCommand : Obligations.StepRunsTheDecodedCommand := by
  intro s w i q hp hd
  have hcheck : check (.write 0x00 (.word w)) = .ok (.command i) := by rw [check_cmd, hd]; rfl
  refine ⟨_, exec_eq i _, ?_⟩
  rw [step_transaction hp, Block.step, hcheck]
  rfl

/-- Settles O29: a register write at the front, then a read of the same register. -/
theorem keyRegistersStoreTheirWrites : Obligations.KeyRegistersStoreTheirWrites :=
  ⟨fun _ w _ => ⟨_, _, step_write_offset .keyLo w rfl, rfl, rfl, step_read_offset .keyLo rfl, rfl⟩,
    fun _ w _ => ⟨_, _, step_write_offset .keyHi w rfl, rfl, rfl, step_read_offset .keyHi rfl, rfl⟩, rfl, rfl⟩

/-- Settles O30: 22 bits, zero-extended, are the written number mod 2^22. -/
theorem frameKeepsTheLow22Bits : Obligations.FrameKeepsTheLow22Bits := by
  refine ⟨fun s w q => ⟨_, _, step_write_offset .frame w rfl, rfl, ?_, step_read_offset .frame rfl, ?_⟩, rfl⟩
  · rw [← BitVec.setWidth_eq_extractLsb' (by decide)]
    rfl
  · have hread : (w.setWidth 22).setWidth 32 = BitVec.ofNat 32 (w.toNat % 2 ^ 22) :=
      BitVec.eq_of_toNat_eq (by simp)
    simp [hread]

/-- Settles O41: each field of the reset state, by computation. -/
theorem resetValues : Obligations.ResetValues :=
  ⟨rfl, rfl, rfl, rfl, rfl, rfl, rfl⟩

end Sys2Proof.Proofs
end

section
/-! # The port and the platform: reads, transactions in order, key bytes, windows and schedules (20_memory.md) -/

namespace Sys2Proof.Machine

/-! ## Transactions in turn -/

/-- A sequence of transactions in two parts is the second part applied to what the first part leaves (R43). -/
theorem Block.serve_append (b : Block) (xs ys : List Transaction) :
    b.serve (xs ++ ys) = (((b.serve xs).1.serve ys).1, (b.serve xs).2 ++ ((b.serve xs).1.serve ys).2) := by
  induction xs generalizing b with
  | nil => rfl
  | cons t xs ih => simp [Block.serve, ih]

/-- With the transactions `ts` at the front of its pending events, a machine takes them all in as many steps, and its
block serves them in turn. -/
theorem runFor_transactions (ts : List Transaction) {s : State} {q : List PortEvent}
    (h : s.pending = ts.map .transaction ++ q) :
    ∃ t, runFor ts.length s = .next t ∧ t.block = (s.block.serve ts).1 ∧ t.pending = q := by
  induction ts generalizing s with
  | nil => exact ⟨s, rfl, rfl, h⟩
  | cons tr ts ih =>
    rw [List.length_cons, runFor_succ_of_step _ (step_transaction h)]
    exact ih rfl

/-! ## Register writes and keystream bytes -/

/-- Writing a register twice with one value is writing it once (R40). -/
theorem Block.writeReg_writeReg (b : Block) (r : WriteReg) (w : Word) :
    (b.writeReg r w).writeReg r w = b.writeReg r w := by
  cases r <;> rfl

/-- KSBYTE takes eight irregular steps (R76). -/
theorem Block.ksbyte_engine (b : Block) : b.ksbyte.engine = Engine.clockIrregular^[8] b.engine := by
  rw [← Engine.steps_eq_iterate]
  exact ksByte_fst b.engine

/-- Bit 7−j of DOUT after KSBYTE is the output of step j+1 (R76). -/
theorem Block.ksbyte_dout_bit (b : Block) {j : Nat} (hj : j < 8) :
    b.ksbyte.dout.getLsbD (7 - j) = (Engine.clockIrregular^[j + 1] b.engine).outputBit := by
  have hbit : 7 - j < 32 := by omega
  simp [Block.ksbyte, hbit, ksByte_bit b.engine j hj, Engine.steps_eq_iterate]

/-! ## Byte lanes -/

/-- Bit i of four packed bytes is a bit of the byte of its lane (R35). -/
theorem wordOfLanes_getLsbD (b0 b1 b2 b3 : Byte) (i : Nat) :
    (wordOfLanes b0 b1 b2 b3).getLsbD i =
      if i < 8 then b0.getLsbD i else if i < 16 then b1.getLsbD (i - 8)
      else if i < 24 then b2.getLsbD (i - 16) else b3.getLsbD (i - 24) := by
  simp only [wordOfLanes, BitVec.getLsbD_append, Nat.sub_sub]
  grind

/-- The packing of R36 as an OR of shifted bytes: at each bit, only the byte of that lane can be 1. -/
theorem wordOfLanes_eq_or (b0 b1 b2 b3 : Byte) :
    wordOfLanes b0 b1 b2 b3
      = b0.setWidth 32 ||| b1.setWidth 32 <<< 8 ||| b2.setWidth 32 <<< 16 ||| b3.setWidth 32 <<< 24 := by
  apply BitVec.eq_of_getLsbD_eq
  intro i hi
  have outside (b : Byte) (k : Nat) (hk : 8 ≤ k) : b.getLsbD k = false := BitVec.getLsbD_of_ge b k hk
  have inside (k : Nat) : i - k < 32 := lt_of_le_of_lt (Nat.sub_le i k) hi
  simp only [wordOfLanes_getLsbD, BitVec.getLsbD_or, BitVec.getLsbD_shiftLeft, BitVec.getLsbD_setWidth]
  split_ifs with h8 h16 h24
  · simp [hi, h8, Nat.lt_trans h8]
  · simp [hi, inside, h8, h16, Nat.lt_trans h16, outside b0 i (by omega)]
  · simp [hi, inside, h8, h16, h24, outside b0 i (by omega), outside b1 (i - 8) (by omega)]
  · simp [hi, inside, h8, h16, h24, outside b0 i (by omega), outside b1 (i - 8) (by omega),
      outside b2 (i - 16) (by omega)]

/-- Lane j of four packed bytes is byte j (R35). -/
theorem lane_wordOfLanes (b0 b1 b2 b3 : Byte) (j : Fin 4) :
    lane (wordOfLanes b0 b1 b2 b3) j = [b0, b1, b2, b3][j] := by
  apply BitVec.eq_of_getLsbD_eq
  intro k hk
  rw [lane, BitVec.getLsbD_extractLsb', wordOfLanes_getLsbD, decide_eq_true hk, Bool.true_and]
  fin_cases j <;> simp (disch := omega) only [if_pos, if_neg, Nat.add_sub_cancel_left] <;> simp

/-- Byte i of two words in a row is a lane of the low word or of the high word. -/
theorem append_extractLsb'_eq_lane (hi lo : Word) (i : Nat) :
    (hi ++ lo).extractLsb' (8 * i) 8 = if i < 4 then lane lo i else lane hi (i - 4) := by
  split_ifs with h
  · exact BitVec.extractLsb'_append_eq_of_add_le (by omega)
  · rw [BitVec.extractLsb'_append_eq_of_le (by omega), lane, Nat.mul_sub]

/-- Byte i of a key whose two words are packed from bytes is key byte i (R36). -/
theorem append_wordOfLanes_extractLsb' (k0 k1 k2 k3 k4 k5 k6 k7 : Byte) (i : Fin 8) :
    (wordOfLanes k4 k5 k6 k7 ++ wordOfLanes k0 k1 k2 k3).extractLsb' (8 * i) 8
      = [k0, k1, k2, k3, k4, k5, k6, k7][i] := by
  change _ = ([k0, k1, k2, k3] ++ [k4, k5, k6, k7])[(i : Nat)]
  rw [append_extractLsb'_eq_lane]
  by_cases h : (i : Nat) < 4
  · rw [if_pos h, List.getElem_append_left h]
    exact lane_wordOfLanes k0 k1 k2 k3 ⟨i, h⟩
  · rw [if_neg h, List.getElem_append_right (not_lt.mp h)]
    exact lane_wordOfLanes k4 k5 k6 k7 ⟨i - 4, by omega⟩

/-! ## Windows -/

/-- The decode gives an offset exactly in the window, and it is the distance from the base (R34). -/
theorem offsetIn_eq_some_iff {base a : Nat} {off : Offset} :
    offsetIn base a = some off ↔ base ≤ a ∧ a < base + 32 ∧ off.toNat = a - base := by
  rw [offsetIn, Option.ite_none_right_eq_some, Option.some.injEq, BitVec.toNat_eq, BitVec.toNat_ofNat, and_assoc]
  refine and_congr_right fun hle => and_congr_right fun hlt => ?_
  rw [Nat.mod_eq_of_lt (by omega), eq_comm]

/-! ## Accesses served one after another -/

/-- Serve numbered accesses one after another, each answer under its access's number: what SchedulesKeepProgramOrder
writes as a fold. -/
def serveInOrder (instances : List Instance) :
    List (Nat × HostAccess) → List Instance × List (Nat × Option Response)
  | [] => (instances, [])
  | a :: rest =>
    let first := serveAccess a.2 instances
    let more := serveInOrder first.1 rest
    (more.1, (a.1, first.2) :: more.2)

/-- The fold of SchedulesKeepProgramOrder, from any answers already given. -/
theorem foldl_serveAccess_eq_serveInOrder (made : List (Nat × HostAccess)) (instances : List Instance)
    (given : List (Nat × Option Response)) :
    made.foldl
        (fun (done : List Instance × List (Nat × Option Response)) a =>
          ((serveAccess a.2 done.1).1, done.2 ++ [(a.1, (serveAccess a.2 done.1).2)]))
        (instances, given)
      = ((serveInOrder instances made).1, given ++ (serveInOrder instances made).2) := by
  induction made generalizing instances given with
  | nil => simp [serveInOrder]
  | cons a made ih => simp [serveInOrder, ih]

/-- Every access served has one answer, under its own number. -/
theorem serveInOrder_map_fst (made : List (Nat × HostAccess)) (instances : List Instance) :
    (serveInOrder instances made).2.map Prod.fst = made.map Prod.fst := by
  induction made generalizing instances with
  | nil => rfl
  | cons a made ih => simp [serveInOrder, ih]

/-! ## Grants and schedules -/

/-- Access number c of master m's list, if it has that many. -/
def Platform.access (p : Platform) (m c : Nat) : Option HostAccess :=
  p.masters[m]?.bind fun x => x.todo[c]?

theorem Platform.access_of_master {p : Platform} {m : Nat} {x : Master} (hx : p.masters[m]? = some x) (c : Nat) :
    p.access m c = x.todo[c]? := by
  simp [Platform.access, hx]

/-- A master with no next access has an empty list. -/
theorem Platform.todo_eq_nil_of_access_eq_none {p : Platform} {m : Nat} {x : Master} (hx : p.masters[m]? = some x)
    (hidle : p.access m 0 = none) : x.todo = [] := by
  simpa [access_of_master hx] using hidle

/-- Everything a grant can do: nothing, or make the next access of a master that has one. -/
theorem Platform.grant_cases (p : Platform) (k : Nat) :
    (p.access k 0 = none ∧ p.grant k = p)
      ∨ ∃ h rest old, p.masters[k]? = some { todo := h :: rest, answers := old }
        ∧ p.grant k = { instances := (serveAccess h p.instances).1
                        masters := p.masters.set k
                          { todo := rest, answers := old ++ [(serveAccess h p.instances).2] } } := by
  cases hk : p.masters[k]? with
  | none => exact .inl (by simp [Platform.grant, Platform.access, hk])
  | some x =>
    obtain ⟨todo, old⟩ := x
    cases todo with
    | nil => exact .inl (by simp [Platform.grant, Platform.access, hk])
    | cons h rest => exact .inr ⟨h, rest, old, rfl, by simp [Platform.grant, hk]⟩

/-- A grant to master k moves k's list on by one access and no other list. -/
theorem Platform.access_grant (p : Platform) (k m c : Nat) :
    (p.grant k).access m c = p.access m (c + if k == m then 1 else 0) := by
  obtain ⟨hidle, hgrant⟩ | ⟨h, rest, old, hk, hgrant⟩ := p.grant_cases k
  · rw [hgrant]
    obtain rfl | hkm := eq_or_ne k m
    · cases hk : p.masters[k]? with
      | none => simp [Platform.access, hk]
      | some x => simp [access_of_master hk, todo_eq_nil_of_access_eq_none hk hidle]
    · simp [hkm]
  · obtain rfl | hkm := eq_or_ne k m
    · rw [access_of_master hk, hgrant,
        access_of_master (List.getElem?_set_self (List.getElem?_eq_some_iff.mp hk).1)]
      simp
    · simp [hgrant, Platform.access, hkm]

/-- The accesses of a schedule, each looked up by its number in its master's list. -/
theorem Platform.scheduled_eq (p : Platform) (schedule : List Nat) :
    p.scheduled schedule = (List.range schedule.length).filterMap fun i =>
      schedule[i]?.bind fun m => (p.access m ((schedule.take i).count m)).map (m, ·) := by
  simp [Platform.scheduled, Platform.access, Option.map_bind]

/-- A schedule's accesses are the first grant's, if it makes one, and then those of the rest of the schedule on the
platform that the grant leaves. -/
theorem Platform.scheduled_cons (p : Platform) (k : Nat) (rest : List Nat) :
    p.scheduled (k :: rest) = ((p.access k 0).map (k, ·)).toList ++ (p.grant k).scheduled rest := by
  have htail : (List.range rest.length).filterMap ((fun i =>
      (k :: rest)[i]?.bind fun m => (p.access m (((k :: rest).take i).count m)).map (m, ·)) ∘ Nat.succ)
      = (p.grant k).scheduled rest := by
    simp [Platform.scheduled_eq, List.count_cons, Platform.access_grant]
  simp only [p.scheduled_eq, List.length_cons, List.range_succ_eq_map, List.filterMap_cons,
    List.filterMap_map, htail]
  cases h : p.access k 0 <;> simp [h]

/-- The platform after a schedule holds the instances that serving the scheduled accesses in order leaves. -/
theorem Platform.run_instances (p : Platform) (schedule : List Nat) :
    (p.run schedule).instances = (serveInOrder p.instances (p.scheduled schedule)).1 := by
  induction schedule generalizing p with
  | nil => rfl
  | cons k schedule ih =>
    rw [Platform.run, ih, p.scheduled_cons]
    obtain ⟨hidle, hgrant⟩ | ⟨h, rest, old, hk, hgrant⟩ := p.grant_cases k
    · simp [hidle, hgrant]
    · simp [access_of_master hk, hgrant, serveInOrder]

/-- The accesses or answers of master m among numbered ones, in order. -/
def ofMaster {α : Type} (m : Nat) (l : List (Nat × α)) : List α :=
  (l.filter fun a => a.1 = m).map Prod.snd

@[simp] theorem ofMaster_nil {α : Type} (m : Nat) : ofMaster m ([] : List (Nat × α)) = [] := rfl

@[simp] theorem ofMaster_cons_self {α : Type} (m : Nat) (a : α) (l : List (Nat × α)) :
    ofMaster m ((m, a) :: l) = a :: ofMaster m l := by
  simp [ofMaster]

theorem ofMaster_cons_of_ne {α : Type} {k m : Nat} (h : k ≠ m) (a : α) (l : List (Nat × α)) :
    ofMaster m ((k, a) :: l) = ofMaster m l := by
  simp [ofMaster, h]

/-- A schedule makes master m's first accesses in order, as many as m has grants, leaves m the rest of its list, and
gives m the answers to its own accesses. -/
theorem Platform.run_master (p : Platform) (schedule : List Nat) {m : Nat} {x : Master}
    (hx : p.masters[m]? = some x) :
    ofMaster m (p.scheduled schedule) = x.todo.take (schedule.count m)
      ∧ (p.run schedule).masters[m]?
          = some { todo := x.todo.drop (schedule.count m)
                   answers := x.answers ++ ofMaster m (serveInOrder p.instances (p.scheduled schedule)).2 } := by
  induction schedule generalizing p x with
  | nil => exact ⟨rfl, by simpa [Platform.scheduled, serveInOrder, Platform.run] using hx⟩
  | cons k schedule ih =>
    rw [Platform.run, p.scheduled_cons]
    obtain ⟨hidle, hgrant⟩ | ⟨h, rest, old, hk, hgrant⟩ := p.grant_cases k
    · obtain ⟨hmade, hend⟩ := ih p hx
      rw [hgrant, hidle, hend, Option.map_none, Option.toList_none, List.nil_append, hmade]
      obtain rfl | hkm := eq_or_ne k m
      · simp [todo_eq_nil_of_access_eq_none hx hidle]
      · simp [List.count_cons_of_ne hkm]
    · have hserve : (p.grant k).instances = (serveAccess h p.instances).1 := by rw [hgrant]
      simp only [access_of_master hk, List.getElem?_cons_zero, Option.map_some, Option.toList_some,
        List.singleton_append, serveInOrder, ← hserve]
      obtain rfl | hkm := eq_or_ne k m
      · have hnext : (p.grant k).masters[k]?
            = some { todo := rest, answers := old ++ [(serveAccess h p.instances).2] } := by
          rw [hgrant, List.getElem?_set_self (List.getElem?_eq_some_iff.mp hk).1]
        obtain ⟨hmade, hend⟩ := ih (p.grant k) hnext
        cases hx.symm.trans hk
        simp [hmade, hend]
      · obtain ⟨hmade, hend⟩ := ih (p.grant k) (x := x) (by rw [hgrant, List.getElem?_set_ne hkm, hx])
        simp [hmade, hend, ofMaster_cons_of_ne hkm, List.count_cons_of_ne hkm]

end Sys2Proof.Machine

namespace Sys2Proof.Proofs

open Sys2Proof.Machine

/-- Settles O37: the step on a transaction is the block function, its response recorded. -/
theorem portIsTheBlockFunction : Obligations.PortIsTheBlockFunction :=
  fun _ _ _ => step_transaction rfl

/-- Settles O38, by induction on the transactions, in `runFor_transactions` and `Block.serve_append`. -/
theorem transactionsApplyInOrder : Obligations.TransactionsApplyInOrder :=
  ⟨fun ts _ _ => runFor_transactions ts rfl, Block.serve_append⟩

/-- Settles O31: the second KSBYTE starts eight steps on, where the first ended. -/
theorem commandsAreNotIdempotent : Obligations.CommandsAreNotIdempotent := by
  refine ⟨Block.writeReg_writeReg, fun s => ⟨_, _, exec_eq .ksbyte s, exec_eq .ksbyte _, ?_, fun j hj => ⟨?_, ?_⟩⟩⟩
  · change s.block.ksbyte.ksbyte.engine = _
    rw [Block.ksbyte_engine, Block.ksbyte_engine, ← Function.iterate_add_apply]
  · exact s.block.ksbyte_dout_bit hj
  · change s.block.ksbyte.ksbyte.dout.getLsbD (7 - j) = _
    rw [Block.ksbyte_dout_bit _ hj, Block.ksbyte_engine, ← Function.iterate_add_apply, Nat.add_right_comm]

/-- Settles O57, with the fold of the statement written as `serveInOrder`: the instances, then each master, by
induction on the schedule. -/
theorem schedulesKeepProgramOrder : Obligations.SchedulesKeepProgramOrder := by
  intro p schedule made served
  have hserved : served = serveInOrder p.instances made := foldl_serveAccess_eq_serveInOrder made p.instances []
  rw [hserved]
  exact ⟨p.run_instances schedule, serveInOrder_map_fst made p.instances, fun m x hx => p.run_master schedule hx⟩

/-- Settles O28: the four readable registers at their offsets, and the four offsets that a check refuses. -/
theorem readsHaveNoSideEffects : Obligations.ReadsHaveNoSideEffects := by
  refine ⟨fun s q off v h => ?_, fun s q off h => ?_⟩
  · obtain ⟨rfl, rfl⟩ | ⟨rfl, rfl⟩ | ⟨rfl, rfl⟩ | ⟨rfl, rfl⟩ := h
    · exact ⟨_, step_read_offset .dout rfl, rfl, rfl⟩
    · exact ⟨_, step_read_offset .keyLo rfl, rfl, rfl⟩
    · exact ⟨_, step_read_offset .keyHi rfl, rfl, rfl⟩
    · exact ⟨_, step_read_offset .frame rfl, rfl, rfl⟩
  · obtain rfl | rfl | rfl | rfl := h <;> exact ⟨_, _, step_of_check_error rfl rfl, rfl, rfl⟩

/-- Settles O54: lanes 0 to 3 of KEY_LO, then those of KEY_HI. -/
theorem keyBytesLandInOrder : Obligations.KeyBytesLandInOrder :=
  fun _ k0 k1 k2 k3 k4 k5 k6 k7 =>
    ⟨wordOfLanes_eq_or k0 k1 k2 k3, append_wordOfLanes_extractLsb' k0 k1 k2 k3 k4 k5 k6 k7⟩

/-- Settles O55: below 32 the distance from the base fits the offset's five bits. -/
theorem addressDecode : Obligations.AddressDecode :=
  fun _ _ _ => offsetIn_eq_some_iff

end Sys2Proof.Proofs
end

section
/-! # Encoding: a CMD word is its four fields, and decoding is the inverse of encoding (30_encoding.md) -/

namespace Sys2Proof

open Sys2Proof.Machine (BusError)

/-! ## A word and its fields -/

/-- Two bit vectors in a row as a number: the high one above the low one. -/
theorem toNat_append_eq_mul_add {m n : Nat} (x : BitVec m) (y : BitVec n) :
    (x ++ y).toNat = x.toNat * 2 ^ n + y.toNat := by
  rw [BitVec.toNat_append, ← Nat.shiftLeft_add_eq_or_of_lt y.isLt, Nat.shiftLeft_eq]

/-- A word as a number, from its fields (R50). -/
theorem packCmd_toNat (rsvdHi : BitVec 16) (data : Byte) (rsvdLo op : BitVec 4) :
    (packCmd rsvdHi data rsvdLo op).toNat
      = rsvdHi.toNat * 2 ^ 16 + data.toNat * 2 ^ 8 + rsvdLo.toNat * 2 ^ 4 + op.toNat := by
  change (rsvdHi ++ data ++ rsvdLo ++ op).toNat = _
  simp only [toNat_append_eq_mul_add]
  ring

/-- OP is a word's low four bits (R50). -/
theorem opField_toNat (w : Word) : (opField w).toNat = w.toNat % 16 := by
  simp [opField]

@[simp] theorem opField_packCmd (rsvdHi : BitVec 16) (data : Byte) (rsvdLo op : BitVec 4) :
    opField (packCmd rsvdHi data rsvdLo op) = op := by
  apply BitVec.eq_of_toNat_eq
  rw [opField_toNat, packCmd_toNat]
  omega

@[simp] theorem dataField_packCmd (rsvdHi : BitVec 16) (data : Byte) (rsvdLo op : BitVec 4) :
    dataField (packCmd rsvdHi data rsvdLo op) = data := by
  apply BitVec.eq_of_toNat_eq
  rw [dataField, BitVec.extractLsb'_toNat, packCmd_toNat, Nat.shiftRight_eq_div_pow]
  omega

/-- A word is its fields packed: no bit lies outside them (R50). -/
theorem packCmd_fields (w : Word) :
    packCmd (w.extractLsb' 16 16) (dataField w) (w.extractLsb' 4 4) (opField w) = w := by
  apply BitVec.eq_of_toNat_eq
  simp only [packCmd_toNat, dataField, opField, BitVec.extractLsb'_toNat, Nat.shiftRight_eq_div_pow]
  omega

/-- Different fields make different words (R50). -/
theorem packCmd_inj {rsvdHi rsvdHi' : BitVec 16} {data data' : Byte} {rsvdLo rsvdLo' op op' : BitVec 4} :
    packCmd rsvdHi data rsvdLo op = packCmd rsvdHi' data' rsvdLo' op'
      ↔ rsvdHi = rsvdHi' ∧ data = data' ∧ rsvdLo = rsvdLo' ∧ op = op' := by
  simp only [BitVec.toNat_eq, packCmd_toNat]
  omega

/-- A mask acts on each field by itself. -/
theorem packCmd_and (rsvdHi rsvdHi' : BitVec 16) (data data' : Byte) (rsvdLo rsvdLo' op op' : BitVec 4) :
    packCmd rsvdHi data rsvdLo op &&& packCmd rsvdHi' data' rsvdLo' op'
      = packCmd (rsvdHi &&& rsvdHi') (data &&& data') (rsvdLo &&& rsvdLo') (op &&& op') := by
  change (rsvdHi ++ data ++ rsvdLo ++ op) &&& (rsvdHi' ++ data' ++ rsvdLo' ++ op') = _ ++ _ ++ _ ++ _
  simp only [BitVec.and_append]

/-! ## The masks, field by field -/

/-- Under the mask of INIT, KSBIT and KSBYTE, a word whose reserved bits are 0 is its OP alone (R54). -/
theorem and_plainMask_eq_zero_iff {w : Word} : w &&& 0xFFFFFFF0 = 0 ↔ packCmd 0 0 0 (opField w) = w := by
  rw [← packCmd_fields w]
  change _ &&& packCmd (BitVec.allOnes 16) (BitVec.allOnes 8) (BitVec.allOnes 4) 0 = packCmd 0 0 0 0 ↔ _
  simp [packCmd_and, packCmd_inj, eq_comm, -BitVec.reduceAllOnes]

/-- Under ENC's mask, a word whose reserved bits are 0 is its OP and DATA alone (R54). -/
theorem and_encMask_eq_zero_iff {w : Word} :
    w &&& 0xFFFF00F0 = 0 ↔ packCmd 0 (dataField w) 0 (opField w) = w := by
  rw [← packCmd_fields w]
  change _ &&& packCmd (BitVec.allOnes 16) 0 (BitVec.allOnes 4) 0 = packCmd 0 0 0 0 ↔ _
  simp [packCmd_and, packCmd_inj, eq_comm, -BitVec.reduceAllOnes]

/-- A word that matches ENC's row of the table is OP 4 and its DATA alone (R51). -/
theorem and_encRowMask_eq_iff {w : Word} :
    w &&& 0xFFFF00FF = 0x00000004 ↔ packCmd 0 (dataField w) 0 4 = w := by
  rw [← packCmd_fields w]
  change _ &&& packCmd (BitVec.allOnes 16) 0 (BitVec.allOnes 4) (BitVec.allOnes 4) = packCmd 0 0 0 4 ↔ _
  simp [packCmd_and, packCmd_inj, eq_comm, -BitVec.reduceAllOnes]

/-! ## Decode and encode -/

/-- Every command is decoded from its own word. -/
@[simp] theorem decode_encode (i : Instr) : decode (encode i) = .ok i := by
  cases i with
  | init => rfl
  | ksbit => rfl
  | ksbyte => rfl
  | enc d =>
    have hmask : packCmd 0 d 0 4 &&& 0xFFFF00F0 = 0 := and_encMask_eq_zero_iff.mpr (by simp)
    simpa [decode, encode, rsvdMask] using hmask

/-- An accepted word has no bit that its command does not give it. -/
theorem encode_of_decode {w : Word} {i : Instr} (h : decode w = .ok i) : encode i = w := by
  obtain ⟨hd, -⟩ | ⟨hd, -⟩ | ⟨hd, hop, hmask⟩ | ⟨hd, hop, hmask⟩ | ⟨hd, hop, hmask⟩ | ⟨hd, hop, hmask⟩ :=
    decode_cases w <;> rw [hd] at h <;> cases h
  · rw [encode, ← hop]
    exact and_plainMask_eq_zero_iff.mp hmask
  · rw [encode, ← hop]
    exact and_plainMask_eq_zero_iff.mp hmask
  · rw [encode, ← hop]
    exact and_plainMask_eq_zero_iff.mp hmask
  · rw [encode, ← hop]
    exact and_encMask_eq_zero_iff.mp hmask

/-- A command has one word, its encoding. -/
theorem decode_eq_ok_iff {w : Word} {i : Instr} : decode w = .ok i ↔ encode i = w :=
  ⟨encode_of_decode, fun h => h ▸ decode_encode i⟩

theorem encode_injective : Function.Injective encode := by
  intro i j h
  have hij : decode (encode i) = decode (encode j) := by rw [h]
  simpa using hij

/-- A command is one of the rows of the opcode table (R51). -/
theorem Instr.exists_iff {p : Instr → Prop} :
    (∃ i, p i) ↔ p .init ∨ p .ksbit ∨ p .ksbyte ∨ ∃ d, p (.enc d) := by
  constructor
  · rintro ⟨i, hi⟩
    cases i with
    | init => exact .inl hi
    | ksbit => exact .inr (.inl hi)
    | ksbyte => exact .inr (.inr (.inl hi))
    | enc d => exact .inr (.inr (.inr ⟨d, hi⟩))
  · rintro (hi | hi | hi | ⟨d, hi⟩) <;> exact ⟨_, hi⟩

/-! ## The words of each answer -/

/-- The OP values of the four commands are 1 to 4 (R51). -/
theorem opField_legal_iff {w : Word} :
    (opField w = 1 ∨ opField w = 2 ∨ opField w = 3 ∨ opField w = 4) ↔ 1 ≤ w.toNat % 16 ∧ w.toNat % 16 ≤ 4 := by
  simp only [BitVec.toNat_eq, opField_toNat, BitVec.ofNat_eq_ofNat, BitVec.toNat_ofNat]
  omega

/-- E_OPCODE is raised by OP alone (R55). -/
theorem decode_eq_eOpcode_iff {w : Word} :
    decode w = .error .eOpcode ↔ w.toNat % 16 = 0 ∨ 5 ≤ w.toNat % 16 := by
  have hop : w.toNat % 16 = 0 ∨ 5 ≤ w.toNat % 16
      ↔ ¬(opField w = 1 ∨ opField w = 2 ∨ opField w = 3 ∨ opField w = 4) := by
    rw [opField_legal_iff]
    omega
  rw [hop]
  obtain ⟨hd, h⟩ | ⟨hd, h, -⟩ | ⟨hd, h, -⟩ | ⟨hd, h, -⟩ | ⟨hd, h, -⟩ | ⟨hd, h, -⟩ := decode_cases w
  · exact iff_of_true hd h
  · simp only [hd, h, reduceCtorEq, Except.error.injEq, not_true_eq_false]
  · simp [hd, h]
  · simp [hd, h]
  · simp [hd, h]
  · simp [hd, h]

/-- E_RSVD is what is left: a word that is no command and has a legal OP (R56). -/
theorem decode_eq_eRsvd_iff {w : Word} :
    decode w = .error .eRsvd ↔ (¬∃ i, decode w = .ok i) ∧ 1 ≤ w.toNat % 16 ∧ w.toNat % 16 ≤ 4 := by
  have hop : (1 ≤ w.toNat % 16 ∧ w.toNat % 16 ≤ 4) ↔ decode w ≠ .error .eOpcode := by
    rw [Ne, decode_eq_eOpcode_iff]
    omega
  rw [hop]
  cases hd : decode w with
  | ok i => simp
  | error c => obtain rfl | rfl := decode_error hd <;> simp

/-- Every command's word is a legal word, as R57 writes them. -/
theorem legalWord_encode (i : Instr) : legalWord (encode i) = true := by
  have hstatement : Laws.EncodeLegal.Statement i := by
    cases i with
    | init => exact Laws.EncodeLegal.init
    | ksbit => exact Laws.EncodeLegal.ksbit
    | ksbyte => exact Laws.EncodeLegal.ksbyte
    | enc d => exact Laws.EncodeLegal.enc d
  obtain ⟨-, hlegal, -⟩ := hstatement
  exact hlegal

/-- A word that decodes to a command is a legal word (R57). -/
theorem legalWord_of_decode {w : Word} {i : Instr} (h : decode w = .ok i) : legalWord w = true :=
  encode_of_decode h ▸ legalWord_encode i

/-- R56's words, a legal OP with a nonzero field it does not use, are answered E_RSVD. -/
theorem decode_eq_eRsvd_of_fields {w : Word}
    (h : ((w.extractLsb' 0 4 = 1 ∨ w.extractLsb' 0 4 = 2 ∨ w.extractLsb' 0 4 = 3) ∧ w.extractLsb' 4 28 ≠ 0)
      ∨ (w.extractLsb' 0 4 = 4 ∧ (w.extractLsb' 16 16 ≠ 0 ∨ w.extractLsb' 4 4 ≠ 0))) :
    decode w = .error .eRsvd := by
  have hop : opField w = 1 ∨ opField w = 2 ∨ opField w = 3 ∨ opField w = 4 := by
    unfold opField
    tauto
  have hlegal : legalWord w = false := by
    obtain ⟨h | h | h, hfield⟩ | ⟨h, hfield⟩ := h <;>
      simpa [legalWord, h, imp_iff_not_or] using hfield
  refine decode_eq_eRsvd_iff.mpr ⟨fun ⟨i, hi⟩ => ?_, opField_legal_iff.mp hop⟩
  simp [legalWord_of_decode hi] at hlegal

/-! ## The 259 legal words -/

/-- ENC's word as a number (R51). -/
theorem encode_enc_toNat (d : Byte) : (encode (.enc d)).toNat = 4 + 256 * d.toNat := by
  simp only [encode, packCmd_toNat, BitVec.ofNat_eq_ofNat, BitVec.toNat_ofNat]
  omega

/-- Every command once: INIT, KSBIT, KSBYTE, and ENC of each data byte. -/
def commands : List Instr :=
  .init :: .ksbit :: .ksbyte :: (List.finRange 256).map fun d => .enc ⟨d⟩

theorem mem_commands (i : Instr) : i ∈ commands := by
  cases i with
  | init => simp [commands]
  | ksbit => simp [commands]
  | ksbyte => simp [commands]
  | enc d =>
    have hd : Instr.enc d ∈ (List.finRange 256).map fun d => Instr.enc ⟨d⟩ :=
      List.mem_map.mpr ⟨d.toFin, List.mem_finRange _, rfl⟩
    simp [commands, hd]

theorem commands_nodup : commands.Nodup := by
  have henc : ((List.finRange 256).map fun d => Instr.enc ⟨d⟩).Nodup :=
    (List.nodup_finRange 256).map fun d d' h => by cases h; rfl
  simp [commands, henc]

/-- The legal words (R57). -/
def legalWords : List Word := commands.map encode

theorem mem_legalWords_iff {w : Word} : w ∈ legalWords ↔ ∃ i, decode w = .ok i := by
  simp [legalWords, mem_commands, decode_eq_ok_iff]

/-- The legal words as numbers (R51). -/
theorem mem_legalWords_iff_toNat {w : Word} :
    w ∈ legalWords ↔ w.toNat = 1 ∨ w.toNat = 2 ∨ w.toNat = 3 ∨ ∃ d < 256, w.toNat = 4 + 256 * d := by
  have henc : (∃ d, encode (.enc d) = w) ↔ ∃ d < 256, w.toNat = 4 + 256 * d := by
    simp only [BitVec.toNat_eq, encode_enc_toNat]
    exact ⟨fun ⟨d, hd⟩ => ⟨d.toNat, d.isLt, hd.symm⟩, fun ⟨d, hlt, hd⟩ => ⟨⟨d, hlt⟩, hd.symm⟩⟩
  simp only [mem_legalWords_iff, decode_eq_ok_iff, Instr.exists_iff, henc]
  simp only [BitVec.toNat_eq, eq_comm (b := w.toNat)]
  rfl

/-! ## The opcode table -/

/-- A row whose mask is all ones is matched by one word. -/
theorem matchesRow_allOnes {name : String} {m w : Word} : matchesRow (name, 0xFFFFFFFF, m) w = true ↔ m = w := by
  change decide (w &&& BitVec.allOnes 32 = m) = true ↔ _
  simp [eq_comm, -BitVec.reduceAllOnes]

/-- ENC's row is matched by ENC's words (R51). -/
theorem matchesRow_enc {w : Word} :
    matchesRow ("ENC", 0xFFFF00FF, 0x00000004) w = true ↔ ∃ d, encode (.enc d) = w := by
  rw [matchesRow, decide_eq_true_iff, and_encRowMask_eq_iff]
  exact ⟨fun h => ⟨_, h⟩, fun ⟨d, h⟩ => by simp [← h, encode]⟩

/-- Matching a row of the table is decoding to a command with the row's mnemonic. -/
theorem matchesRow_iff_decode {row : String × Word × Word} (hrow : row ∈ opcodeTable) {w : Word} :
    matchesRow row w = true ↔ ∃ i, decode w = .ok i ∧ i.mnemonic = row.1 := by
  simp only [decode_eq_ok_iff, Instr.exists_iff]
  simp only [opcodeTable, List.mem_cons, List.not_mem_nil, or_false] at hrow
  obtain rfl | rfl | rfl | rfl := hrow
  · rw [matchesRow_allOnes]
    simp [Instr.mnemonic, encode, packCmd]
  · rw [matchesRow_allOnes]
    simp [Instr.mnemonic, encode, packCmd]
  · rw [matchesRow_allOnes]
    simp [Instr.mnemonic, encode, packCmd]
  · rw [matchesRow_enc]
    simp [Instr.mnemonic]

end Sys2Proof

namespace Sys2Proof.Machine

/-- A CMD write of a word that does not decode is answered ERROR under the decoder's cause and changes nothing
(R89). -/
theorem step_cmd_of_decode_error {w : Word} {c : BusError} (h : decode w = .error c) (s : State)
    (q : List PortEvent) :
    step { s with pending := .transaction (.write 0x00 (.word w)) :: q }
      = .next { block := s.block, pending := q, response := some (.error c) } :=
  step_of_check_error rfl (by rw [check_cmd, h]; rfl)

end Sys2Proof.Machine

namespace Sys2Proof.Proofs

open Sys2Proof.Machine

/-- Settles O3: what the decoder accepts has every unused field 0, so the word is its command's. -/
theorem decodeEncodeAgree : Obligations.DecodeEncodeAgree :=
  ⟨fun i _ => decode_encode i, fun _ i h => ⟨by cases i <;> rfl, encode_of_decode h⟩⟩

/-- Settles O4: the legal words are the commands' encodings; the other words are told apart by OP. -/
theorem wordsAreLegalOrOneError : Obligations.WordsAreLegalOrOneError := by
  refine ⟨legalWords, commands_nodup.map encode_injective, by simp [legalWords, commands],
    fun w => mem_legalWords_iff_toNat, fun w => mem_legalWords_iff, fun w => decode_eq_eOpcode_iff, fun w => ?_⟩
  rw [mem_legalWords_iff]
  exact decode_eq_eRsvd_iff

/-- Settles O5: the decoder alone checks a CMD write, and its error is the step's. -/
theorem illegalWordsChangeNothing : Obligations.IllegalWordsChangeNothing :=
  fun s _ q =>
    ⟨fun h => ⟨_, step_cmd_of_decode_error (decode_eq_eOpcode_iff.mpr h) s q, rfl, rfl⟩,
      fun h => ⟨_, step_cmd_of_decode_error (decode_eq_eRsvd_of_fields h) s q, rfl, rfl⟩⟩

/-- Settles O6: a word that matches two rows decodes to one command, whose mnemonic both rows have; the
mnemonics of the table differ. -/
theorem tableRowsDecide : Obligations.TableRowsDecide := by
  refine ⟨?_, fun row hrow w => matchesRow_iff_decode hrow⟩
  have hnames : opcodeTable.Pairwise fun a b => a.1 ≠ b.1 := by decide
  refine hnames.imp_of_mem fun {a b} ha hb hne w hw => hne ?_
  obtain ⟨i, hi, hia⟩ := (matchesRow_iff_decode ha).mp hw.1
  obtain ⟨j, hj, hjb⟩ := (matchesRow_iff_decode hb).mp hw.2
  cases hi.symm.trans hj
  exact hia.symm.trans hjb

/-- Settles O1: the words by computation, ENC's as a number. -/
theorem completeEncodings : Obligations.CompleteEncodings := by
  refine ⟨rfl, rfl, rfl, fun d => ?_, decode_encode, fun w => decode_eq_eOpcode_iff.mpr⟩
  apply BitVec.eq_of_toNat_eq
  simp only [encode_enc_toNat, BitVec.ofNat_eq_ofNat, BitVec.toNat_add, BitVec.toNat_mul, BitVec.toNat_setWidth,
    BitVec.toNat_ofNat]
  omega

end Sys2Proof.Proofs
end

section
/-! # The engine's primitives: shifts, the majority, irregular steps and the pattern they leave (40_lfsr_core.md) -/

namespace Sys2Proof.Machine

/-! ## Feedback -/

/-- Feedback reads the tapped bits and no others (R62). -/
theorem feedback_congr {n : Nat} {taps : List Nat} {r r' : BitVec n}
    (h : ∀ t ∈ taps, r.getLsbD t = r'.getLsbD t) : feedback taps r = feedback taps r' :=
  List.foldl_ext _ _ _ fun _ t ht => by rw [h t ht]

/-- An even number of equal bits have XOR 0. -/
theorem feedback_eq_false_of_even {n : Nat} {taps : List Nat} {r : BitVec n} {b : Bool} (heven : Even taps.length)
    (h : ∀ t ∈ taps, r.getLsbD t = b) : feedback taps r = false := by
  have hflip : Function.Involutive fun fb => fb ^^ b := fun fb => by simp
  calc feedback taps r
    _ = taps.foldl (fun fb _ => fb ^^ b) false := List.foldl_ext _ _ _ fun _ t ht => by rw [h t ht]
    _ = (fun fb => fb ^^ b)^[taps.length] false := List.foldl_const _ _ _
    _ = false := by rw [hflip.iterate_even heven, id]

/-- The feedback of R1 (R62). -/
theorem feedback_taps1 (r : BitVec 19) :
    feedback taps1 r = (((r.getLsbD 13 ^^ r.getLsbD 16) ^^ r.getLsbD 17) ^^ r.getLsbD 18) := by
  simp [feedback, taps1]

/-- The feedback of R2 (R62). -/
theorem feedback_taps2 (r : BitVec 22) : feedback taps2 r = (r.getLsbD 20 ^^ r.getLsbD 21) := by
  simp [feedback, taps2]

/-- The feedback of R3 (R62). -/
theorem feedback_taps3 (r : BitVec 23) :
    feedback taps3 r = (((r.getLsbD 7 ^^ r.getLsbD 20) ^^ r.getLsbD 21) ^^ r.getLsbD 22) := by
  simp [feedback, taps3]

/-! ## Shift and feedback -/

/-- A shift doubles the number, drops the top bit and adds the feedback (R61). -/
theorem shiftFeedback_toNat {n : Nat} (hn : 0 < n) (taps : List Nat) (r : BitVec n) :
    (shiftFeedback taps r).toNat = r.toNat * 2 % 2 ^ n + (feedback taps r).toNat := by
  obtain ⟨m, rfl⟩ := Nat.exists_eq_succ_of_ne_zero hn.ne'
  have hbit := (feedback taps r).toNat_lt
  have hhalf : (r.toNat * 2 + (feedback taps r).toNat) / 2 = r.toNat := by omega
  rw [shiftFeedback, BitVec.toNat_shiftConcat, Nat.shiftLeft_eq, pow_one, pow_succ', Nat.mod_mul, Nat.mod_mul, hhalf,
    Nat.mul_div_cancel _ two_pos]
  omega

/-- A register that a shift leaves alone has every bit equal to its feedback: bit 0 is the feedback, and each other
bit equals its lower neighbour. -/
theorem getLsbD_of_shiftFeedback_eq_self {n : Nat} {taps : List Nat} {v : BitVec n} (h : shiftFeedback taps v = v)
    (i : Nat) (hi : i < n) : v.getLsbD i = feedback taps v := by
  induction i with
  | zero =>
    have hbit := shiftFeedback_getLsbD taps v 0 hi
    rwa [h, if_pos rfl] at hbit
  | succ i ih =>
    have hbit := shiftFeedback_getLsbD_succ taps v i hi
    rw [h] at hbit
    rw [hbit, ih (by omega)]

/-- With an even number of taps, zero is the only value a shift leaves alone: the feedback of a register of equal
bits is 0 (R71). -/
theorem shiftFeedback_eq_self_iff {n : Nat} {taps : List Nat} (heven : Even taps.length) (htaps : ∀ t ∈ taps, t < n)
    (v : BitVec n) : shiftFeedback taps v = v ↔ v = 0 := by
  constructor
  · intro h
    have hbits := getLsbD_of_shiftFeedback_eq_self h
    have hfb : feedback taps v = false := feedback_eq_false_of_even heven fun t ht => hbits t (htaps t ht)
    exact BitVec.eq_of_getLsbD_eq fun i hi => by simp [hbits i hi, hfb]
  · rintro rfl
    exact shiftFeedback_zero taps

theorem shiftFeedback_taps1_eq_self_iff (v : BitVec 19) : shiftFeedback taps1 v = v ↔ v = 0 :=
  shiftFeedback_eq_self_iff (by decide) (by decide) v

theorem shiftFeedback_taps2_eq_self_iff (v : BitVec 22) : shiftFeedback taps2 v = v ↔ v = 0 :=
  shiftFeedback_eq_self_iff (by decide) (by decide) v

theorem shiftFeedback_taps3_eq_self_iff (v : BitVec 23) : shiftFeedback taps3 v = v ↔ v = 0 :=
  shiftFeedback_eq_self_iff (by decide) (by decide) v

/-- A register that a shift would change holds exactly when it is not clocked. -/
theorem ite_shiftFeedback_eq_self_iff {n : Nat} {taps : List Nat} {v : BitVec n} {clocks : Prop} [Decidable clocks]
    (h : shiftFeedback taps v ≠ v) : (if clocks then shiftFeedback taps v else v) = v ↔ ¬clocks := by
  rw [ite_eq_right_iff, imp_iff_not h]

/-! ## Mixing a bit -/

theorem xorBit0_getLsbD {n : Nat} (r : BitVec n) (b : Bool) (i : Nat) (hi : i < n) :
    (xorBit0 r b).getLsbD i = (r.getLsbD i ^^ (decide (i = 0) && b)) := by
  simp [xorBit0, BitVec.getLsbD_ofBool, hi]

theorem bitOne_getLsbD {n : Nat} (b : Bool) (i : Nat) (hi : i < n) :
    (if b then (2 : BitVec n) else 0).getLsbD i = (decide (i = 1) && b) := by
  have htwo : Nat.testBit 2 i = decide (1 = i) := Nat.testBit_two_pow (n := 1)
  cases b with
  | false => simp
  | true =>
    rw [if_pos rfl, BitVec.ofNat_eq_ofNat, BitVec.getLsbD_ofNat, htwo]
    simp [hi, eq_comm]

/-- A bit mixed into an untapped bit 0 before the shift lands in bit 1 after it (R68). -/
theorem shiftFeedback_xorBit0 {n : Nat} {taps : List Nat} (htaps : ∀ t ∈ taps, 0 < t ∧ t < n) (r : BitVec n)
    (b : Bool) : shiftFeedback taps (xorBit0 r b) = shiftFeedback taps r ^^^ (if b then 2 else 0) := by
  have hfb : feedback taps (xorBit0 r b) = feedback taps r := feedback_congr fun t ht => by
    obtain ⟨hpos, hlt⟩ := htaps t ht
    simp [xorBit0_getLsbD r b t hlt, hpos.ne']
  apply BitVec.eq_of_getLsbD_eq
  intro i hi
  rw [BitVec.getLsbD_xor, bitOne_getLsbD b i hi]
  cases i with
  | zero => simp only [shiftFeedback_getLsbD _ _ 0 hi, hfb]; simp
  | succ i =>
    rw [shiftFeedback_getLsbD_succ _ _ i hi, shiftFeedback_getLsbD_succ _ _ i hi, xorBit0_getLsbD r b i (by omega)]
    simp

/-! ## The majority -/

/-- The majority is 1 exactly when at least two of the bits are (R63). -/
theorem maj_eq_true_iff (a b c : Bool) : maj a b c = true ↔ 2 ≤ a.toNat + b.toNat + c.toNat := by
  revert a b c
  decide

/-- The majority agrees with the last two bits whenever they agree. -/
theorem maj_of_right_eq (a : Bool) {b c : Bool} (h : b = c) : maj a b c = b := by
  subst h
  revert a b
  decide

/-- The majority agrees with the outer two bits whenever they agree. -/
theorem maj_of_outer_eq {a : Bool} (b : Bool) {c : Bool} (h : a = c) : maj a b c = a := by
  subst h
  revert a b
  decide

/-! ## Which registers an irregular step clocks -/

/-- The control bits agree: all three registers clock (R65). -/
theorem Engine.clockIrregular_of_agree {e : Engine} (h12 : e.c1 = e.c2) (h23 : e.c2 = e.c3) :
    e.clockIrregular = e.clockAll := by
  have hm : e.majority = e.c2 := maj_of_right_eq _ h23
  simp [Engine.clockIrregular, Engine.clockAll, hm, h12, ← h23]

/-- R1's control bit differs from the other two: R1 holds (R65). -/
theorem Engine.clockIrregular_of_r1_differs {e : Engine} (h23 : e.c2 = e.c3) (h1 : e.c1 ≠ e.c2) :
    e.clockIrregular = { e.clockAll with r1 := e.r1 } := by
  have hm : e.majority = e.c2 := maj_of_right_eq _ h23
  simp [Engine.clockIrregular, Engine.clockAll, hm, ← h23, h1]

/-- R2's control bit differs from the other two: R2 holds (R65). -/
theorem Engine.clockIrregular_of_r2_differs {e : Engine} (h13 : e.c1 = e.c3) (h2 : e.c2 ≠ e.c1) :
    e.clockIrregular = { e.clockAll with r2 := e.r2 } := by
  have hm : e.majority = e.c1 := maj_of_outer_eq _ h13
  simp [Engine.clockIrregular, Engine.clockAll, hm, ← h13, h2]

/-- R3's control bit differs from the other two: R3 holds (R65). -/
theorem Engine.clockIrregular_of_r3_differs {e : Engine} (h12 : e.c1 = e.c2) (h3 : e.c3 ≠ e.c1) :
    e.clockIrregular = { e.clockAll with r3 := e.r3 } := by
  have hm : e.majority = e.c1 := maj_of_eq _ h12
  simp [Engine.clockIrregular, Engine.clockAll, hm, ← h12, h3]

/-! ## The pattern that irregular steps leave -/

/-- In a register that clocked, the control bit has moved up by one (R61). -/
theorem Engine.clockAll_r1_moved (e : Engine) : e.clockAll.r1.getLsbD 9 = e.c1 :=
  shiftFeedback_getLsbD_succ taps1 e.r1 8 (by decide)

theorem Engine.clockAll_r2_moved (e : Engine) : e.clockAll.r2.getLsbD 11 = e.c2 :=
  shiftFeedback_getLsbD_succ taps2 e.r2 10 (by decide)

theorem Engine.clockAll_r3_moved (e : Engine) : e.clockAll.r3.getLsbD 11 = e.c3 :=
  shiftFeedback_getLsbD_succ taps3 e.r3 10 (by decide)

/-- Every irregular step leaves the pattern: the clause it meets is the one for the register that held, if one
did. -/
theorem clockPattern_clockIrregular (e : Engine) : clockPattern e.clockIrregular := by
  have h1 := e.clockAll_r1_moved
  have h2 := e.clockAll_r2_moved
  have h3 := e.clockAll_r3_moved
  by_cases h12 : e.c1 = e.c2
  · by_cases h23 : e.c2 = e.c3
    · rw [Engine.clockIrregular_of_agree h12 h23]
      exact .inl ⟨by rw [h1, h2, h12], by rw [h2, h3, h23]⟩
    · rw [Engine.clockIrregular_of_r3_differs h12 (h12 ▸ Ne.symm h23)]
      exact .inr (.inr (.inr ⟨by rw [h1, h2, h12], fun h => h23 (h.trans h2).symm⟩))
  · by_cases h23 : e.c2 = e.c3
    · rw [Engine.clockIrregular_of_r1_differs h23 h12]
      exact .inr (.inl ⟨by rw [h2, h3, h23], fun h => h12 ((h.trans h3).trans h23.symm)⟩)
    · have h13 : e.c1 = e.c3 := (Bool.eq_not.mpr h12).trans (Bool.eq_not.mpr (Ne.symm h23)).symm
      rw [Engine.clockIrregular_of_r2_differs h13 (Ne.symm h12)]
      exact .inr (.inr (.inl ⟨by rw [h1, h3, h13], fun h => h23 (h.trans h3)⟩))

theorem clockPattern_zero : clockPattern Engine.zero :=
  .inl ⟨rfl, rfl⟩

/-- Any number of irregular steps keeps the pattern. -/
theorem clockPattern_steps {e : Engine} (h : clockPattern e) (m : Nat) : clockPattern (e.steps m) := by
  cases m with
  | zero => exact h
  | succ m => exact clockPattern_clockIrregular _

/-- INIT ends in irregular steps (R72), so it leaves the pattern. -/
theorem clockPattern_initEngine (key : Key) (frame : Frame) : clockPattern (initEngine key frame) :=
  clockPattern_clockIrregular _

/-! ## The zero engine -/

/-- The zero engine's keystream byte is 0 (R70). -/
@[simp] theorem ksByte_zero : ksByte Engine.zero = (Engine.zero, 0) := by
  decide

/-- A command that leaves the engine as it was writes RESULT alone. -/
theorem Block.finish_of_engine_eq {b : Block} {e : Engine} (h : b.engine = e) (result : Byte) :
    b.finish e result = { b with result := result } := by
  rw [Block.finish, ← h]

/-- KSBIT on a zero engine (R70). -/
theorem Block.ksbit_of_engine_zero {b : Block} (h : b.engine = Engine.zero) : b.ksbit = { b with result := 0 } :=
  calc b.ksbit
    _ = b.finish Engine.zero 0 := by rw [Block.ksbit, h, Engine.clockIrregular_zero]; rfl
    _ = { b with result := 0 } := Block.finish_of_engine_eq h 0

/-- KSBYTE on a zero engine (R70). -/
theorem Block.ksbyte_of_engine_zero {b : Block} (h : b.engine = Engine.zero) : b.ksbyte = { b with result := 0 } :=
  calc b.ksbyte
    _ = b.finish Engine.zero 0 := by rw [Block.ksbyte, h, ksByte_zero]
    _ = { b with result := 0 } := Block.finish_of_engine_eq h 0

/-- ENC d on a zero engine: the keystream byte is 0, so d is left as it is (R70). -/
theorem Block.enc_of_engine_zero {b : Block} (h : b.engine = Engine.zero) (d : Byte) :
    b.enc d = { b with result := d } :=
  calc b.enc d
    _ = b.finish Engine.zero d := by simp [Block.enc, h]
    _ = { b with result := d } := Block.finish_of_engine_eq h d

end Sys2Proof.Machine

namespace Sys2Proof.Proofs

open Sys2Proof.Machine

/-- Settles O46: a step zeroes the engine, sets it as INIT does, or takes irregular steps. -/
theorem stepKeepsTheClockPattern : Obligations.StepKeepsTheClockPattern := by
  intro s t hs h
  obtain ht | ht | ⟨m, ht⟩ := step_engine_cases h
  · rw [ht]; exact clockPattern_zero
  · rw [ht]; exact clockPattern_initEngine _ _
  · rw [ht]; exact clockPattern_steps hs m

/-- Settles O47: the engine with only R2's bit 11 set lacks the pattern, for R2's moved bit differs from the other two
and its control bit does not. -/
theorem clockPatternIsWhatClockingLeaves : Obligations.ClockPatternIsWhatClockingLeaves :=
  ⟨clockPattern_zero, clockPattern_clockIrregular, { r1 := 0, r2 := 0x000800, r3 := 0 }, by unfold clockPattern; decide⟩

/-- Settles O7: the bits and the number of any shifted register, with each register's feedback written out. -/
theorem shiftFeedbackShifts : Obligations.ShiftFeedbackShifts := by
  refine ⟨fun r => ?_, fun r => ?_, fun r => ?_⟩
  · rw [← feedback_taps1]
    exact ⟨shiftFeedback_getLsbD taps1 r, shiftFeedback_toNat (by decide) taps1 r⟩
  · rw [← feedback_taps2]
    exact ⟨shiftFeedback_getLsbD taps2 r, shiftFeedback_toNat (by decide) taps2 r⟩
  · rw [← feedback_taps3]
    exact ⟨shiftFeedback_getLsbD taps3 r, shiftFeedback_toNat (by decide) taps3 r⟩

/-- Settles O11, register by register: no register has a tap at bit 0. -/
theorem mixedBitLandsInBitOne : Obligations.MixedBitLandsInBitOne := by
  intro b e
  rw [Engine.mixBit, Engine.clockAll, shiftFeedback_xorBit0 (by decide), shiftFeedback_xorBit0 (by decide),
    shiftFeedback_xorBit0 (by decide)]
  rfl

/-- Settles O13: each register has an even number of taps. -/
theorem onlyZeroSurvivesAShift : Obligations.OnlyZeroSurvivesAShift :=
  ⟨shiftFeedback_taps1_eq_self_iff, shiftFeedback_taps2_eq_self_iff, shiftFeedback_taps3_eq_self_iff, fun e =>
    ⟨fun h => ite_shiftFeedback_eq_self_iff (mt (shiftFeedback_taps1_eq_self_iff e.r1).mp h),
      fun h => ite_shiftFeedback_eq_self_iff (mt (shiftFeedback_taps2_eq_self_iff e.r2).mp h),
      fun h => ite_shiftFeedback_eq_self_iff (mt (shiftFeedback_taps3_eq_self_iff e.r3).mp h)⟩⟩

/-- Settles O8, by the eight values of the three bits. -/
theorem majorityIsTwoOfThree : Obligations.MajorityIsTwoOfThree :=
  maj_eq_true_iff

/-- Settles O9: the two branches of each register's clock. -/
theorem majorityDecidesWhatClocks : Obligations.MajorityDecidesWhatClocks :=
  fun _ => ⟨fun h => if_pos h, fun h => if_neg h, fun h => if_pos h, fun h => if_neg h, fun h => if_pos h,
    fun h => if_neg h⟩

/-- Settles O10, by the register that holds, if one does. -/
theorem twoOrThreeRegistersClock : Obligations.TwoOrThreeRegistersClock :=
  fun _ =>
    ⟨fun ⟨h12, h23⟩ => Engine.clockIrregular_of_agree h12 h23,
      fun ⟨h23, h1⟩ => Engine.clockIrregular_of_r1_differs h23 h1,
      fun ⟨h13, h2⟩ => Engine.clockIrregular_of_r2_differs h13 h2,
      fun ⟨h12, h3⟩ => Engine.clockIrregular_of_r3_differs h12 h3⟩

/-- Settles O12: the primitives on the zero engine, then the commands, which leave a zero engine as it is. -/
theorem zeroEngineIsFixed : Obligations.ZeroEngineIsFixed :=
  ⟨Engine.clockAll_zero, Engine.clockIrregular_zero, by rw [Engine.mixBit_false, Engine.clockAll_zero], rfl,
    fun _ d h => ⟨Block.ksbit_of_engine_zero h, Block.ksbyte_of_engine_zero h, Block.enc_of_engine_zero h d⟩⟩

end Sys2Proof.Proofs
end

section
/-! # Commands: INIT, KSBIT, KSBYTE and ENC on every state, and the host-level operations made of them
(41_commands.md) -/

namespace Sys2Proof.Machine

/-! ## The zero engine and the engine INIT leaves -/

/-- Any number of irregular steps keeps the zero engine (R70). -/
@[simp] theorem Engine.iterate_clockIrregular_zero (n : Nat) : Engine.clockIrregular^[n] Engine.zero = Engine.zero :=
  Function.iterate_fixed Engine.clockIrregular_zero n

/-- INIT's loops as folds over the bit numbers, then 100 irregular steps (R72). -/
theorem initEngine_eq_iterate_foldl (key : Key) (frame : Frame) :
    initEngine key frame
      = Engine.clockIrregular^[100] ((List.range 22).foldl (fun e i => Engine.mixBit (frame.getLsbD i) e)
          ((List.range 64).foldl (fun e i => Engine.mixBit (key.getLsbD i) e) Engine.zero)) := by
  rw [initEngine, Engine.steps_eq_iterate, mixLow_eq_foldl, mixLow_eq_foldl]
  rfl

/-! ## Each command on the block -/

@[simp] theorem Block.init_engine (b : Block) : b.init.engine = initEngine b.key b.fn := rfl
@[simp] theorem Block.init_key (b : Block) : b.init.key = b.key := rfl
@[simp] theorem Block.init_fn (b : Block) : b.init.fn = b.fn := rfl
@[simp] theorem Block.init_dout (b : Block) : b.init.dout = 0 := rfl

/-- INIT reads KEY and FRAME alone and keeps both, so a second one changes nothing (R73, R74). -/
@[simp] theorem Block.init_init (b : Block) : b.init.init = b.init := rfl

@[simp] theorem Block.ksbit_engine (b : Block) : b.ksbit.engine = b.engine.clockIrregular := rfl

/-- DOUT after KSBIT is the output bit of the clocked engine, zero-extended (R75). -/
theorem Block.ksbit_dout (b : Block) : b.ksbit.dout = if b.engine.clockIrregular.outputBit then 1 else 0 := by
  rw [Block.ksbit, Block.finish_dout]
  cases b.engine.clockIrregular.outputBit <;> rfl

theorem Block.ksbit_dout_bit_zero (b : Block) :
    b.ksbit.dout.getLsbD 0 = b.engine.clockIrregular.outputBit := by
  rw [Block.ksbit_dout]
  cases b.engine.clockIrregular.outputBit <;> rfl

/-- n KSBITs in a row take n irregular steps (R78). -/
theorem Block.iterate_ksbit_engine (n : Nat) (b : Block) :
    (Block.ksbit^[n] b).engine = Engine.clockIrregular^[n] b.engine :=
  (show Function.Semiconj Block.engine Block.ksbit Engine.clockIrregular from Block.ksbit_engine).iterate_right n b

/-- One more KSBIT after j of them (R79). -/
theorem exec_ksbit_iterate (s : State) (j : Nat) :
    exec .ksbit (s.setBlock (Block.ksbit^[j] s.block)) = .next (s.setBlock (Block.ksbit^[j + 1] s.block)) := by
  rw [exec_eq, Function.iterate_succ_apply']
  rfl

/-- ENC moves the engine as KSBYTE does, whatever its data byte is (R77). -/
theorem Block.enc_engine (b : Block) (d : Byte) : (b.enc d).engine = Engine.clockIrregular^[8] b.engine :=
  b.ksbyte_engine

/-- ENC's result is its data byte XOR the byte KSBYTE gives (R77). -/
theorem Block.enc_result (b : Block) (d : Byte) : (b.enc d).result = d ^^^ b.ksbyte.result := rfl

@[simp] theorem Block.enc_key (b : Block) (d : Byte) : (b.enc d).key = b.key := rfl
@[simp] theorem Block.enc_fn (b : Block) (d : Byte) : (b.enc d).fn = b.fn := rfl

/-- Bit 7−j of DOUT after ENC is that of the data byte XOR the output of step j+1 (R77). -/
theorem Block.enc_dout_bit (b : Block) (d : Byte) {j : Nat} (hj : j < 8) :
    (b.enc d).dout.getLsbD (7 - j)
      = (d.getLsbD (7 - j) ^^ (Engine.clockIrregular^[j + 1] b.engine).outputBit) := by
  have hbit : 7 - j < 32 := by omega
  rw [← b.ksbyte_dout_bit hj]
  simp [Block.dout, Block.enc_result, hbit]

/-- ENC of a zero byte is KSBYTE (R80). -/
theorem Block.enc_zero (b : Block) : b.enc 0 = b.ksbyte := by
  simp [Block.enc, Block.ksbyte]

/-! ## The lines a host writes -/

/-- DOUT[7:0] is RESULT (R22). -/
@[simp] theorem Block.dout_extractLsb' (b : Block) : b.dout.extractLsb' 0 8 = b.result := by
  rw [← BitVec.setWidth_eq_extractLsb' (by decide)]
  exact BitVec.setWidth_setWidth_of_le b.result (by decide)

/-- A `WR` line of an RW register stores and is answered OK (R59). -/
@[simp] theorem Block.step_wrLine (b : Block) (r : WriteReg) (w : Word) :
    b.step (wrLine r.reg w) = (b.writeReg r w, .okWrite) := by
  rw [Block.step, wrLine, check_write_offset]

/-- An `RD` line of a readable register answers its value and changes nothing (R59). -/
@[simp] theorem Block.step_rdLine (b : Block) (r : ReadReg) : b.step (rdLine r.reg) = (b, .okRead (b.readReg r)) := by
  rw [Block.step, rdLine, check_read_offset]

/-- A command line runs its command and is answered OK (R59). -/
@[simp] theorem Block.step_cmdLine (b : Block) (i : Instr) : b.step (cmdLine i) = (b.command i, .okWrite) := by
  have hcheck : check (cmdLine i) = .ok (.command i) := by
    rw [cmdLine, wrLine, Reg.offset, check_cmd, decode_encode]
    rfl
  rw [Block.step, hcheck]

/-- A command and a read of DOUT, then further lines: the host reads the command's result first (R60). -/
theorem Block.serve_collect_append (b : Block) (i : Instr) (rest : List Transaction) :
    (b.serve (collect i ++ rest)).1 = ((b.command i).serve rest).1
      ∧ readData (b.serve (collect i ++ rest)).2 = (b.command i).dout :: readData ((b.command i).serve rest).2 := by
  have hread (c : Block) : c.step (rdLine .dout) = (c, .okRead c.dout) := c.step_rdLine .dout
  simp [collect, Block.serve, hread, readData, List.filterMap_cons, Response.data?]

/-! ## The host-level operations, one command at a time -/

theorem Block.keystreamBits_zero (b : Block) : b.keystreamBits 0 = (b, []) := rfl

theorem Block.keystreamBits_succ (b : Block) (n : Nat) :
    b.keystreamBits (n + 1)
      = ((b.ksbit.keystreamBits n).1, b.engine.clockIrregular.outputBit :: (b.ksbit.keystreamBits n).2) := by
  obtain ⟨hblock, hdata⟩ := b.serve_collect_append .ksbit (ksbitsLines n)
  have hlines : ksbitsLines (n + 1) = collect .ksbit ++ ksbitsLines n := rfl
  simp only [Block.keystreamBits, hlines, hblock, hdata, Block.command, List.map_cons, Block.ksbit_dout_bit_zero]

theorem Block.keystreamBytes_zero (b : Block) : b.keystreamBytes 0 = (b, []) := rfl

theorem Block.keystreamBytes_succ (b : Block) (n : Nat) :
    b.keystreamBytes (n + 1)
      = ((b.ksbyte.keystreamBytes n).1, b.ksbyte.result :: (b.ksbyte.keystreamBytes n).2) := by
  obtain ⟨hblock, hdata⟩ := b.serve_collect_append .ksbyte (ksbytesLines n)
  have hlines : ksbytesLines (n + 1) = collect .ksbyte ++ ksbytesLines n := rfl
  simp [Block.keystreamBytes, hlines, hblock, hdata, Block.command]

theorem Block.encrypt_nil (b : Block) : b.encrypt [] = (b, []) := rfl

theorem Block.encrypt_cons (b : Block) (d : Byte) (data : List Byte) :
    b.encrypt (d :: data) = (((b.enc d).encrypt data).1, (b.enc d).result :: ((b.enc d).encrypt data).2) := by
  obtain ⟨hblock, hdata⟩ := b.serve_collect_append (.enc d) (encryptLines data)
  have hlines : encryptLines (d :: data) = collect (.enc d) ++ encryptLines data := rfl
  simp [Block.encrypt, hlines, hblock, hdata, Block.command]

/-! ## The keystream operations in closed form -/

/-- n keystream bits leave the engine n irregular steps on (R82). -/
theorem Block.keystreamBits_engine (b : Block) (n : Nat) :
    (b.keystreamBits n).1.engine = Engine.clockIrregular^[n] b.engine := by
  induction n generalizing b with
  | zero => rfl
  | succ n ih => rw [Block.keystreamBits_succ, ih, Block.ksbit_engine, Function.iterate_succ_apply]

/-- The keystream bits are the outputs of the next n steps, in order (R82). -/
theorem Block.keystreamBits_eq_map (b : Block) (n : Nat) :
    (b.keystreamBits n).2 = (List.range n).map fun i => (Engine.clockIrregular^[i + 1] b.engine).outputBit := by
  induction n generalizing b with
  | zero => rfl
  | succ n ih =>
    rw [Block.keystreamBits_succ, ih, List.range_succ_eq_map, List.map_cons, List.map_map]
    rfl

/-- Bit i of the keystream bits is the output of step i+1 (R82). -/
theorem Block.keystreamBits_getElem? (b : Block) {n i : Nat} (hi : i < n) :
    (b.keystreamBits n).2[i]? = some (Engine.clockIrregular^[i + 1] b.engine).outputBit := by
  simp [Block.keystreamBits_eq_map, hi]

/-- n keystream bytes leave the engine 8n irregular steps on (R83). -/
theorem Block.keystreamBytes_engine (b : Block) (n : Nat) :
    (b.keystreamBytes n).1.engine = Engine.clockIrregular^[8 * n] b.engine := by
  induction n generalizing b with
  | zero => rfl
  | succ n ih =>
    rw [Block.keystreamBytes_succ, ih, Block.ksbyte_engine, ← Function.iterate_add_apply, Nat.mul_succ]

/-- The keystream bytes are those of eight steps each, in order (R83). -/
theorem Block.keystreamBytes_eq_map (b : Block) (n : Nat) :
    (b.keystreamBytes n).2 = (List.range n).map fun m => (ksByte (Engine.clockIrregular^[8 * m] b.engine)).2 := by
  induction n generalizing b with
  | zero => rfl
  | succ n ih =>
    rw [Block.keystreamBytes_succ, ih, Block.ksbyte_engine, List.range_succ_eq_map, List.map_cons, List.map_map]
    rfl

/-- Byte m of the keystream bytes is that of the engine 8m irregular steps on (R83). -/
theorem Block.keystreamBytes_getElem? (b : Block) {n m : Nat} (hm : m < n) :
    (b.keystreamBytes n).2[m]? = some (ksByte (Engine.clockIrregular^[8 * m] b.engine)).2 := by
  simp [Block.keystreamBytes_eq_map, hm]

/-- The keystream bytes depend on the engine alone (R17). -/
theorem Block.keystreamBytes_congr {a b : Block} (h : a.engine = b.engine) (n : Nat) :
    (a.keystreamBytes n).2 = (b.keystreamBytes n).2 := by
  rw [Block.keystreamBytes_eq_map, Block.keystreamBytes_eq_map, h]

/-! ## Encryption -/

/-- An encryption leaves the engine eight irregular steps on for each byte of data (R84). -/
theorem Block.encrypt_engine (b : Block) (data : List Byte) :
    (b.encrypt data).1.engine = Engine.clockIrregular^[8 * data.length] b.engine := by
  induction data generalizing b with
  | nil => rfl
  | cons d data ih =>
    rw [Block.encrypt_cons, ih, Block.enc_engine, ← Function.iterate_add_apply, List.length_cons, Nat.mul_succ]

/-- An encryption keeps KEY and FRAME, so INIT after it sets up the same block as before it (R73). -/
@[simp] theorem Block.encrypt_key (b : Block) (data : List Byte) : (b.encrypt data).1.key = b.key := by
  induction data generalizing b with
  | nil => rfl
  | cons d data ih => rw [Block.encrypt_cons, ih, Block.enc_key]

@[simp] theorem Block.encrypt_fn (b : Block) (data : List Byte) : (b.encrypt data).1.fn = b.fn := by
  induction data generalizing b with
  | nil => rfl
  | cons d data ih => rw [Block.encrypt_cons, ih, Block.enc_fn]

/-- Encryption XORs the data with the keystream bytes (R84). -/
theorem Block.encrypt_eq_zipWith (b : Block) (data : List Byte) :
    (b.encrypt data).2 = List.zipWith (fun d k => d ^^^ k) data (b.keystreamBytes data.length).2 := by
  induction data generalizing b with
  | nil => rfl
  | cons d data ih =>
    have hrest : (b.enc d).engine = b.ksbyte.engine := rfl
    rw [Block.encrypt_cons, ih, Block.keystreamBytes_congr hrest, List.length_cons, Block.keystreamBytes_succ,
      List.zipWith_cons_cons, Block.enc_result]

@[simp] theorem Block.encrypt_length (b : Block) (data : List Byte) : (b.encrypt data).2.length = data.length := by
  simp [Block.encrypt_eq_zipWith, Block.keystreamBytes_eq_map]

/-- Two encryptions that start at one engine undo each other: each byte is XORed twice with one keystream byte, and
both engines stay equal (R85). -/
theorem Block.encrypt_encrypt_of_engine_eq {a b : Block} (h : a.engine = b.engine) (data : List Byte) :
    (b.encrypt (a.encrypt data).2).2 = data := by
  induction data generalizing a b with
  | nil => rfl
  | cons d data ih =>
    have hbyte : (b.enc (a.enc d).result).result = d := by
      simp [Block.enc_result, Block.ksbyte, h]
    have hengine : (a.enc d).engine = (b.enc (a.enc d).result).engine := by
      rw [Block.enc_engine, Block.enc_engine, h]
    rw [Block.encrypt_cons, Block.encrypt_cons, hbyte, ih hengine]

/-! ## The host's set-up sequence -/

/-- The two words of a key, as R81 writes them, are the key mod 2^64. -/
theorem ofInt_append_ofInt (key : Int) :
    BitVec.ofInt 32 (key >>> (32 : Nat)) ++ BitVec.ofInt 32 key = BitVec.ofInt 64 key := by
  apply BitVec.eq_of_toNat_eq
  rw [toNat_append_eq_mul_add]
  simp only [BitVec.toNat_ofInt, Int.shiftRight_eq_div_pow]
  omega

/-- FRAME keeps the low 22 bits of the frame word (R25), the frame mod 2^22. -/
theorem ofInt_setWidth (frame : Int) : (BitVec.ofInt 32 frame).setWidth 22 = BitVec.ofInt 22 frame := by
  apply BitVec.eq_of_toNat_eq
  simp only [BitVec.toNat_setWidth, BitVec.toNat_ofInt]
  omega

/-- The set-up sequence of R81 is answered OK throughout, and leaves what INIT leaves of a block with the truncated
key and frame. -/
theorem Block.serve_hostInit (b : Block) (key frame : Int) :
    b.serve (hostInit key frame)
      = ((((b.writeReg .keyLo (BitVec.ofInt 32 key)).writeReg .keyHi (BitVec.ofInt 32 (key >>> (32 : Nat)))).writeReg
            .frame (BitVec.ofInt 32 frame)).init, [.okWrite, .okWrite, .okWrite, .okWrite]) := by
  have hlines : hostInit key frame
      = [wrLine WriteReg.keyLo.reg (BitVec.ofInt 32 key),
         wrLine WriteReg.keyHi.reg (BitVec.ofInt 32 (key >>> (32 : Nat))),
         wrLine WriteReg.frame.reg (BitVec.ofInt 32 frame), cmdLine .init] := rfl
  simp only [hlines, Block.serve, Block.step_wrLine, Block.step_cmdLine, Block.command]

end Sys2Proof.Machine

namespace Sys2Proof.Proofs

open Sys2Proof.Machine

/-- Settles O15: the model's loops are the statement's folds, and INIT's 100 steps with KSBIT's are 101. -/
theorem initMixesAndWarmsUp : Obligations.InitMixesAndWarmsUp := by
  intro s keyed mixed
  have hengine : s.block.init.engine = Engine.clockIrregular^[100] mixed := initEngine_eq_iterate_foldl _ _
  refine ⟨_, exec_eq .init s, hengine, s.block.init_dout, rfl, rfl, rfl, _, exec_eq .ksbit _, ?_⟩
  calc s.block.init.ksbit.dout.getLsbD 0
    _ = s.block.init.engine.clockIrregular.outputBit := Block.ksbit_dout_bit_zero _
    _ = (Engine.clockIrregular^[101] mixed).outputBit := by rw [hengine, Function.iterate_succ_apply' _ 100]

/-- Settles O18: KSBYTE's engine and bits, and DOUT's constant bits. -/
theorem ksbytePacksFirstBitHighest : Obligations.KsbytePacksFirstBitHighest :=
  fun s => ⟨_, exec_eq .ksbyte s, s.block.ksbyte_engine, fun _ hj => s.block.ksbyte_dout_bit hj,
    fun _ hi => Block.dout_getLsbD_of_ge _ hi, rfl, rfl, rfl⟩

/-- Settles O19: ENC's engine and bits, and DOUT's constant bits. -/
theorem encXorsTheKeystreamByte : Obligations.EncXorsTheKeystreamByte :=
  fun d s => ⟨_, exec_eq (.enc d) s, s.block.enc_engine d, fun _ hj => s.block.enc_dout_bit d hj,
    fun _ hi => Block.dout_getLsbD_of_ge _ hi, rfl, rfl, rfl⟩

/-- Settles O21: the (j+1)-th KSBIT clocks the engine that j of them leave. -/
theorem ksbyteIsEightKsbits : Obligations.KsbyteIsEightKsbits := by
  intro s
  refine ⟨fun j => s.setBlock (Block.ksbit^[j] s.block), _, rfl, fun j _ => exec_ksbit_iterate s j,
    exec_eq .ksbyte s, ?_, fun j hj => ?_⟩
  · exact s.block.ksbyte_engine.trans (s.block.iterate_ksbit_engine 8).symm
  · calc s.block.ksbyte.dout.getLsbD (7 - j)
      _ = (Engine.clockIrregular^[j + 1] s.block.engine).outputBit := s.block.ksbyte_dout_bit hj
      _ = (Block.ksbit^[j] s.block).engine.clockIrregular.outputBit := by
        rw [Block.iterate_ksbit_engine, Function.iterate_succ_apply']
      _ = (Block.ksbit^[j + 1] s.block).dout.getLsbD 0 := by
        rw [Function.iterate_succ_apply', Block.ksbit_dout_bit_zero]

/-- Settles O22: each command's steps, added to the n steps past INIT; what issues no command takes none (O32). -/
theorem keystreamIsContinuous : Obligations.KeystreamIsContinuous := by
  intro s key frame n d z hs
  have hadd (k : Nat) : Engine.clockIrregular^[k] s.block.engine = z (n + k) := by
    rw [hs, ← Function.iterate_add_apply, Nat.add_comm]
  have hbit (j : Nat) : (Engine.clockIrregular^[j + 1] s.block.engine).outputBit = (z (n + 1 + j)).outputBit := by
    rw [hadd, Nat.add_right_comm, Nat.add_assoc]
  refine ⟨⟨_, exec_eq .ksbit s, hadd 1, ?_⟩, ⟨_, exec_eq .ksbyte s, ?_, fun j hj => ?_⟩,
    ⟨_, exec_eq (.enc d) s, ?_, fun j hj => ?_⟩, fun ev q hp hreset hissued => ?_⟩
  · exact s.block.ksbit_dout_bit_zero.trans (hbit 0)
  · exact s.block.ksbyte_engine.trans (hadd 8)
  · exact (s.block.ksbyte_dout_bit hj).trans (hbit j)
  · exact (s.block.enc_engine d).trans (hadd 8)
  · exact (s.block.enc_dout_bit d hj).trans (by rw [hbit])
  · obtain ⟨t, ht, hengine⟩ := onlyCommandsAndResetMoveTheEngine s
    refine ⟨t, ht, ?_⟩
    rw [hengine, hp, ← hs]
    simp [hreset, hissued]

/-- Settles O23: mixing zero bits keeps the zero engine, and so does every irregular step. -/
theorem initWithZeroKeyIsSilent : Obligations.InitWithZeroKeyIsSilent := by
  refine ⟨fun s ⟨hkey, hfn⟩ => ?_, rfl, rfl⟩
  have hengine : s.block.init.engine = Engine.zero := by rw [Block.init_engine, hkey, hfn, initEngine_zero]
  refine ⟨_, exec_eq .init s, hengine, fun n => ?_⟩
  change (Engine.clockIrregular^[n] s.block.init.engine).outputBit = false
  rw [hengine, Engine.iterate_clockIrregular_zero]
  rfl

/-- Settles O48: the words of R81 truncate, and the registers keep them for INIT. -/
theorem hostInitTruncates : Obligations.HostInitTruncates := by
  intro b key frame
  rw [Block.serve_hostInit]
  refine ⟨rfl, ?_, Block.init_dout _⟩
  rw [← ofInt_append_ofInt key, ← ofInt_setWidth frame]
  rfl

/-- Settles O49, by induction on n in `Block.keystreamBits_eq_map` and `Block.keystreamBits_engine`. -/
theorem keystreamBitsAreTheNextOutputs : Obligations.KeystreamBitsAreTheNextOutputs :=
  fun b n => ⟨b.keystreamBits_eq_map n, b.keystreamBits_engine n, b.keystreamBits_zero⟩

/-- Settles O50: bit 7−j of byte m and bit 8m+j of the sequence are both the output of step 8m+j+1. -/
theorem keystreamBytesPackTheBits : Obligations.KeystreamBytesPackTheBits := by
  refine fun b count => ⟨by simp [Block.keystreamBytes_eq_map], fun m hm j hj => ?_, b.keystreamBytes_zero⟩
  have hbit : 8 * m + j < 8 * count := by omega
  have hstep : 8 * m + j + 1 = j + 1 + 8 * m := by omega
  rw [Block.keystreamBytes_getElem? b hm, Block.keystreamBits_getElem? b hbit, Option.map_some, ksByte_bit _ j hj,
    Engine.steps_eq_iterate, hstep, Function.iterate_add_apply _ (j + 1)]

/-- Settles O51, by induction on the data in `Block.encrypt_eq_zipWith`. -/
theorem encryptXorsTheKeystream : Obligations.EncryptXorsTheKeystream :=
  fun b data => ⟨b.encrypt_eq_zipWith data, b.encrypt_length data,
    (b.encrypt_engine data).trans (b.keystreamBytes_engine data.length).symm, b.encrypt_nil⟩

/-- Settles O52: INIT starts both encryptions at the engine of one key and frame. -/
theorem encryptIsSelfInverseAfterInit : Obligations.EncryptIsSelfInverseAfterInit := by
  intro a b data hkey hfn
  refine ⟨Block.encrypt_encrypt_of_engine_eq ?_ data, Block.encrypt_encrypt_of_engine_eq ?_ data⟩
  · rw [Block.init_engine, Block.init_engine, hkey, hfn]
  · simp only [Block.init_engine, Block.encrypt_key, Block.encrypt_fn, Block.init_key, Block.init_fn]

/-- Settles O53: from the engine with only R1's bit 17 set, the first keystream byte is 0x80 and the second 0, so a zero
byte encrypted twice comes out as 0x80; the zero engine stays where it is, so both calls start at one engine. -/
theorem encryptTwiceIsNoInverse : Obligations.EncryptTwiceIsNoInverse := by
  refine ⟨Block.encrypt_engine, ?_, fun b data hzero => Block.encrypt_encrypt_of_engine_eq ?_ data⟩
  · exact ⟨{ Block.reset with engine := { r1 := 0x20000, r2 := 0, r3 := 0 } }, [0], by decide⟩
  · rw [Block.encrypt_engine, hzero, Engine.iterate_clockIrregular_zero]

/-- Settles O16: the engine and DOUT are not read, and INIT keeps what it reads. -/
theorem initForgetsThePast : Obligations.InitForgetsThePast :=
  fun s _ _ => ⟨_, _, _, exec_eq .init s, exec_eq .init _, exec_eq .init _, rfl, s.block.init_init⟩

/-- Settles O17: KSBIT's engine and DOUT, then the zero engine as R70 has it. -/
theorem ksbitClocksThenReads : Obligations.KsbitClocksThenReads := by
  refine fun s => ⟨_, exec_eq .ksbit s, rfl, s.block.ksbit_dout, rfl, rfl, rfl, fun hzero => ?_⟩
  change s.block.ksbit.engine = Engine.zero ∧ s.block.ksbit.dout = 0
  rw [Block.ksbit_of_engine_zero hzero]
  exact ⟨hzero, rfl⟩

/-- Settles O20: XOR with 0 leaves the keystream byte. -/
theorem encZeroIsKsbyte : Obligations.EncZeroIsKsbyte :=
  fun s => ⟨_, _, exec_eq (.enc 0) s, exec_eq .ksbyte s, congrArg Block.engine s.block.enc_zero,
    congrArg Block.dout s.block.enc_zero⟩

/-- Settles O45: the zero engine is what INIT leaves for key 0 and frame 0. -/
theorem resetIsOnAKeystream : Obligations.ResetIsOnAKeystream :=
  ⟨initEngine_zero.symm, 0, 0, 0, initEngine_zero.symm⟩

end Sys2Proof.Proofs
end

section
/-! # Errors: the list of R91 and the checks agree, and ERROR has no effect (60_exceptions.md) -/

namespace Sys2Proof

open Sys2Proof.Machine

/-! ## The legal words of R57 -/

/-- A legal word, as R57 writes them, decodes to a command. -/
theorem exists_decode_of_legalWord {w : Word} (h : legalWord w = true) : ∃ i, decode w = .ok i := by
  rw [← mem_legalWords_iff, mem_legalWords_iff_toNat]
  simp only [legalWord, Bool.or_eq_true, Bool.and_eq_true, decide_eq_true_eq, BitVec.toNat_eq, BitVec.extractLsb'_toNat,
    Nat.shiftRight_eq_div_pow, BitVec.ofNat_eq_ofNat, BitVec.toNat_ofNat] at h
  obtain ⟨hop, hrest⟩ | ⟨⟨hop, hhi⟩, hlo⟩ := h
  · omega
  · exact .inr (.inr (.inr ⟨w.toNat / 256, by omega, by omega⟩))

/-! ## The list of R91, check by check -/

/-- The size is checked before everything else (R91). -/
theorem listedCause_of_size_ne {t : Transaction} (h : t.size ≠ .word) : listedCause t = some .eSize := by
  have hbytes : t.size.bytes ≠ 4 := by
    cases hs : t.size with
    | byte => decide
    | half => decide
    | word => exact absurd hs h
  rw [listedCause.eq_def, if_pos hbytes]

/-- The alignment and the map are checked next, whatever the direction (R91). -/
theorem listedCause_of_regAt_error {t : Transaction} {c : BusError} (hsize : t.size = .word)
    (h : regAt t.offset = .error c) : listedCause t = some c := by
  have halign : t.offset.extractLsb' 0 2 = 0 ↔ t.offset.toNat % 4 = 0 := by
    simp [BitVec.toNat_eq]
  rw [listedCause.eq_def, if_neg (by simp [hsize, Size.bytes])]
  obtain ⟨rfl, hoff⟩ | ⟨rfl, hoff, hmap⟩ := regAt_error h
  · rw [if_pos (mt halign.mpr hoff)]
  · rw [if_neg (not_not.mpr (halign.mp hoff)), if_pos (by simpa [BitVec.toNat_eq] using hmap)]

/-- A word write of an RW register is not listed (R40). -/
theorem listedCause_write_offset (r : WriteReg) (w : Word) :
    listedCause (.write r.reg.offset (.word w)) = none := by
  cases r <;> simp [listedCause, Transaction.size, WriteData.size, Size.bytes, Transaction.offset, WriteReg.reg,
    Reg.offset]

/-- A word write of DOUT is listed for its direction (R22). -/
theorem listedCause_write_dout (w : Word) : listedCause (.write Reg.dout.offset (.word w)) = some .eAccess := by
  simp [listedCause, Transaction.size, WriteData.size, Size.bytes, Transaction.offset, Reg.offset]

/-- For a word write of CMD what is left of the list is the words of R55 and R56. -/
theorem listedCause_cmd (w : Word) :
    listedCause (.write 0x00 (.word w)) =
      if w.toNat % 16 = 0 ∨ 5 ≤ w.toNat % 16 then some .eOpcode else if legalWord w then none else some .eRsvd :=
  rfl

theorem listedCause_cmd_of_decode_ok {w : Word} {i : Instr} (h : decode w = .ok i) :
    listedCause (.write 0x00 (.word w)) = none := by
  have hop : ¬(w.toNat % 16 = 0 ∨ 5 ≤ w.toNat % 16) := by
    rw [← decode_eq_eOpcode_iff, h]
    simp
  rw [listedCause_cmd, if_neg hop, if_pos (legalWord_of_decode h)]

theorem listedCause_cmd_of_decode_error {w : Word} {c : BusError} (h : decode w = .error c) :
    listedCause (.write 0x00 (.word w)) = some c := by
  obtain rfl | rfl := decode_error h
  · rw [listedCause_cmd, if_pos (decode_eq_eOpcode_iff.mp h)]
  · obtain ⟨hnone, hop⟩ := decode_eq_eRsvd_iff.mp h
    rw [listedCause_cmd, if_neg (by omega), if_neg (mt exists_decode_of_legalWord hnone)]

/-! ## The list and the checks -/

/-- A transaction that passes the checks is not listed. -/
theorem listedCause_of_check_ok {t : Transaction} {a : Access} (h : check t = .ok a) : listedCause t = none := by
  obtain ⟨r, rfl, -⟩ | ⟨r, w, rfl, -⟩ | ⟨w, i, rfl, hd, -⟩ := check_ok h
  · cases r <;> rfl
  · exact listedCause_write_offset r w
  · exact listedCause_cmd_of_decode_ok hd

/-- A transaction that fails a check is listed under the same cause. -/
theorem listedCause_of_check_error {t : Transaction} {c : BusError} (h : check t = .error c) :
    listedCause t = some c := by
  cases t with
  | read off n =>
    cases n with
    | byte => cases h; exact listedCause_of_size_ne nofun
    | half => cases h; exact listedCause_of_size_ne nofun
    | word =>
      cases hr : regAt off with
      | error d =>
        rw [check, hr] at h
        cases h
        exact listedCause_of_regAt_error rfl hr
      | ok r =>
        obtain rfl := regAt_ok hr
        cases r with
        | cmd => cases h; rfl
        | dout => cases h
        | keyLo => cases h
        | keyHi => cases h
        | frame => cases h
  | write off v =>
    cases v with
    | byte v => cases h; exact listedCause_of_size_ne nofun
    | half v => cases h; exact listedCause_of_size_ne nofun
    | word w =>
      cases hr : regAt off with
      | error d =>
        rw [check, hr] at h
        cases h
        exact listedCause_of_regAt_error rfl hr
      | ok r =>
        obtain rfl := regAt_ok hr
        cases r with
        | cmd =>
          refine listedCause_cmd_of_decode_error ?_
          change (decode w).map Access.command = .error c at h
          cases hd : decode w with
          | error d => rw [hd] at h; cases h; rfl
          | ok i => rw [hd] at h; cases h
        | dout => cases h; exact listedCause_write_dout w
        | keyLo => cases h
        | keyHi => cases h
        | frame => cases h

/-- The checks fail exactly under the cause that the list of R91 gives. -/
theorem listedCause_eq_some_iff {t : Transaction} {c : BusError} : listedCause t = some c ↔ check t = .error c := by
  refine ⟨fun h => ?_, listedCause_of_check_error⟩
  cases hc : check t with
  | error d => simpa [listedCause_of_check_error hc] using h
  | ok a => simp [listedCause_of_check_ok hc] at h

/-- The checks pass exactly where the list of R91 gives no cause. -/
theorem listedCause_eq_none_iff {t : Transaction} : listedCause t = none ↔ ∃ a, check t = .ok a := by
  refine ⟨fun h => ?_, fun ⟨a, ha⟩ => listedCause_of_check_ok ha⟩
  cases hc : check t with
  | error c => simp [listedCause_of_check_error hc] at h
  | ok a => exact ⟨a, rfl⟩

end Sys2Proof

namespace Sys2Proof.Machine

/-- A transaction that passes the checks is answered without ERROR. -/
theorem Block.step_isError_of_check_ok {t : Transaction} {a : Access} (h : check t = .ok a) (b : Block) :
    (b.step t).2.isError = false := by
  rw [Block.step, h]
  cases a <;> rfl

/-- A step whose recorded response is ERROR leaves the block as it was (R89). -/
theorem step_block_of_response_error {s u : State} {c : BusError} (h : step s = .next u)
    (hr : u.response = some (.error c)) : u.block = s.block := by
  obtain ⟨-, rfl⟩ | ⟨ev, q, -, ⟨-, rfl⟩ | ⟨t, -, ⟨d, -, rfl⟩ | ⟨r, -, rfl⟩ | ⟨r, w, -, rfl⟩ | ⟨i, -, rfl⟩⟩⟩ :=
    step_next h
  · rfl
  · cases hr
  · rfl
  · cases hr
  · cases hr
  · cases hr

end Sys2Proof.Machine

namespace Sys2Proof.Proofs

open Sys2Proof.Machine

/-- Settles O26: the list of R91 names the cause the checks raise, and a transaction that passes them is performed. -/
theorem errorsAreExactlyTheListed : Obligations.ErrorsAreExactlyTheListed := by
  refine fun s t q => ⟨_, step_transaction rfl, fun c hc => ?_, fun hnone => ?_⟩
  · have hcheck := listedCause_eq_some_iff.mp hc
    simp [Block.step, hcheck]
  · obtain ⟨a, ha⟩ := listedCause_eq_none_iff.mp hnone
    exact ⟨_, rfl, Block.step_isError_of_check_ok ha s.block⟩

/-- Settles O27: of all a step can do, only a failed check ends in ERROR; an idle step may keep an earlier one. -/
theorem busErrorHasNoEffect : Obligations.BusErrorHasNoEffect :=
  ⟨fun _ _ _ => step_block_of_response_error, fun _ _ => rfl⟩

/-- Settles O24: a command is an update of the block that keeps the operand registers. -/
theorem commandsCompleteWithinTheirFrame : Obligations.CommandsCompleteWithinTheirFrame :=
  fun i s => ⟨_, exec_eq i s, s.block.command_keyLo i, s.block.command_keyHi i, s.block.command_fn i, rfl, rfl⟩

end Sys2Proof.Proofs
end

section
/-! # Reset and hazards: a reset event's step, and runs of every length (70_reset_and_hazards.md) -/

namespace Sys2Proof.Machine

/-- A reset, between transactions or during one, leaves the reset block and answers nothing (R103, R105). -/
theorem step_of_isReset {s : State} {ev : PortEvent} {q : List PortEvent} (h : s.pending = ev :: q)
    (hev : isReset ev = true) : step s = .next { block := Block.reset, pending := q, response := none } := by
  rw [step_cons s ev q h]
  cases ev with
  | transaction t => cases hev
  | reset => rfl
  | resetDuring t => rfl

/-- Every run of every length answers a next state, since every step does (R102, R116). -/
theorem runFor_completes (k : Nat) (s : State) : ∃ t, runFor k s = .next t := by
  induction k generalizing s with
  | zero => exact ⟨s, rfl⟩
  | succ k ih =>
    obtain ⟨u, hu⟩ := step_completes s
    rw [runFor_succ_of_step k hu]
    exact ih u

end Sys2Proof.Machine

namespace Sys2Proof.Proofs

open Sys2Proof.Machine

/-- Settles O43, by induction on the number of steps, in `runFor_completes`. -/
theorem everyStepCompletes : Obligations.EveryStepCompletes :=
  runFor_completes

/-- Settles O39: the reset block has 0 in every register. -/
theorem resetEventClearsTheBlock : Obligations.ResetEventClearsTheBlock :=
  fun _ _ => ⟨_, step_of_isReset rfl rfl, rfl⟩

/-- Settles O40: the write that a reset cuts short is not answered at all, so not with OK. -/
theorem resetCutsACommandShort : Obligations.ResetCutsACommandShort :=
  fun _ _ _ => ⟨_, step_of_isReset rfl rfl, State.reset_block.symm, nofun⟩

end Sys2Proof.Proofs
end

section
/-! # The listed words of the decode table (95_test_vectors.md §2.10) -/

namespace Sys2Proof.Proofs

/-- Settles O2: an accepted word is its command's encoding, an E_OPCODE word has OP 0 or at least 5, and an
E_RSVD word has a nonzero field that its OP does not use: bits 31:4 of 0x101, RSVD_LO of 0xF4. -/
theorem listedWordsDecode : Obligations.ListedWordsDecode := by
  refine ⟨decode_encode .init, decode_encode .ksbit, decode_encode .ksbyte, decode_encode (.enc 0x48),
    decode_encode (.enc 0xFF), decode_eq_eOpcode_iff.mpr (.inl rfl), decode_eq_eOpcode_iff.mpr (.inr ?_),
    decode_eq_eRsvd_of_fields (.inl ⟨.inl rfl, ?_⟩), decode_eq_eRsvd_of_fields (.inr ⟨rfl, .inr ?_⟩)⟩
  · decide
  · decide
  · decide

end Sys2Proof.Proofs
end
